-- ==== Sys2Proof/Word.lean ====
section
/-! DEFINITION. The three widths of value TP8 moves (00_scope R8, 10_state R20): a byte (a sample, a
threshold, a packed byte, STATUS), a half word (PAGE, COL, WIDTH, HEIGHT, an immediate) and a word (PC, a
command, an address, a memory length). All of them are unsigned (R9). -/

namespace Sys2Proof

/-- 8 bits: SAMPLE_BITS and THR_BITS of R8. -/
abbrev Byte := BitVec 8

/-- 16 bits: DIM_BITS of R8. -/
abbrev Half := BitVec 16

/-- 32 bits: CMD_BITS and ADDR_BITS of R8. -/
abbrev Word := BitVec 32

end Sys2Proof
end

