-- ==== Sys2Proof/Config.lean ====
section
/-! DEFINITION. The implementation parameters of 00_scope R8, each with the value TP8 takes. The three
launch lengths of the same table are fields of State, since the host chooses them at each launch;
`N_CELLS` is an argument of `pageInPasses`, since no rule depends on it. -/

namespace Sys2Proof.Config

/-- SAMPLE_BITS, fixed. -/
def sampleBits : Nat := 8

/-- THR_BITS, fixed. -/
def thrBits : Nat := 8

/-- PAGE_ROWS, fixed: rows of a page and bits of a packed byte. -/
def pageRows : Nat := 8

/-- DIM_BITS, a parameter with the value 16 for TP8 (D4). -/
def dimBits : Nat := 16

/-- ADDR_BITS, a parameter with the value 32 for TP8 (D7). -/
def addrBits : Nat := 32

/-- CMD_BITS, a parameter with the value 32 for TP8 (D5). -/
def cmdBits : Nat := 32

/-- THR_RESET, a parameter with the value 128 for TP8 (D19). The literal is unaudited (91 N5, N14, D34):
see assumption 14, unsafe for a claim that leans on it. -/
def thrReset : Byte := 128#8

end Sys2Proof.Config
end

