-- ==== Sys2Proof/Machine/State.lean ====
section
/-! DEFINITION. The state of one TP8 block (10_state R20) with the memories its host has bound (20_memory
R50), the state after reset (R34), the six causes of a fault of the block (60_exceptions R161), and the
reasons a step has no next state. -/

namespace Sys2Proof.Machine

/-- The contents of one address space: pairs of an address and what stands there, addresses strictly rising,
none listed that holds what an unlisted address reads as (`Memory.unlisted`, Machine/Ops.lean). A
`Memory 8` is a list of `Host.Cell`; PROG is word-indexed (R51), so its cells are words. -/
abbrev Memory (w : Nat) := List (Nat × BitVec w)

/-- Everything the spec gives the machine. The seven registers are R20's. `out` is written by the PACK
commands; `prog`, `img` and the three lengths are launch values that no step writes (R31, assumption 1). -/
structure State where
  /-- PC, index in words of the next command (R23). -/
  pc : Word
  /-- PAGE, page index of PACKCOL and PACKPAGE (R21). -/
  page : Half
  /-- COL, column index of PACKCOL (R22). -/
  col : Half
  /-- THR, the threshold (R24). -/
  thr : Byte
  /-- WIDTH, the image width in columns (R25). -/
  width : Half
  /-- HEIGHT, the image height in rows (R26). -/
  height : Half
  /-- STATUS: HALT bit 0, FAULT bit 1, CAUSE bits 4:2, reserved bits 7:5 (R27). -/
  status : Byte
  /-- PROG, the command words (R51). -/
  prog : Memory 32
  /-- PROG_LEN, how many command words are bound (R50). -/
  progLen : Word
  /-- IMG, the samples (R52). -/
  img : Memory 8
  /-- IMG_LEN, how many samples are bound (R50). -/
  imgLen : Word
  /-- OUT, the packed bytes (R53). -/
  out : Memory 8
  /-- OUT_LEN, how many bytes of output memory are bound (R50). -/
  outLen : Word
deriving DecidableEq, Repr

/-- The state after reset (R34), in a block to which no memory has been bound yet: the registers are the
spec's, the empty binding is assumption 3. -/
def State.reset : State where
  pc := 0x00000000#32
  page := 0x0000#16
  col := 0x0000#16
  thr := Config.thrReset
  width := 0x0000#16
  height := 0x0000#16
  status := 0x00#8
  prog := []
  progLen := 0#32
  img := []
  imgLen := 0#32
  out := []
  outLen := 0#32

/-- The causes of a fault of the block (R161). Taking one is a next state (`State.takeFault`). -/
inductive Cause where
  /-- Raised by the sequencer: `PC >= PROG_LEN` (R162). -/
  | fetch
  /-- Raised by the sequencer: the fetched word is no command (R163). -/
  | illegal
  /-- Raised by SETTHR: `imm > 255` (R164). -/
  | config
  /-- Raised by the PACK commands: `IMG_LEN != WIDTH * HEIGHT` (R165). -/
  | image
  /-- Raised by PACKCOL and PACKPAGE: no such (page, column) pair (R166). -/
  | index
  /-- Raised by the PACK commands: a byte to write lies at or beyond `OUT_LEN` (R167). -/
  | outbound
deriving DecidableEq, Repr

/-- Why a step has no next state. -/
inductive Fault where
  /-- Raised by `step`, never by a command: `STATUS.HALT` or `STATUS.FAULT` is 1, "no step (the block is
  stopped)" (42_control R150). Safe: the spec gives no step here either (assumption 5). -/
  | stopped
deriving DecidableEq, Repr

/-- Why an instruction has no meaning in the model. -/
inductive Refusal where
  /-- Raised by no arm of this package: every command has its meaning. Safe. -/
  | notModelled (mnemonic : String)
deriving DecidableEq, Repr

end Sys2Proof.Machine
end

