-- ==== Sys2Proof/Machine/Layer0.lean ====
section
/-! DEFINITION. Layer 0: the pure functions that are the source's contract (41_pack Part 1, R120 to R128, and
R125's mask form). An image is any function from (row, column) to a sample; widths and heights are any
natural numbers (93 U12). The commands do not call these functions: that what they write equals
`packbyte` is R139, a statement about the model. -/

namespace Sys2Proof.Machine

/-- An image: the sample of a row and a column, origin top-left. -/
abbrev Image := Nat → Nat → Byte

/-- R120: a pixel is on iff its sample is greater than or equal to the threshold, unsigned and inclusive. -/
def on (s t : Byte) : Bool := decide (t.toNat ≤ s.toNat)

/-- R121: the row of bit `i` of page `p`. -/
def rowOf (p i : Nat) : Nat := 8 * p + i

/-- R121: the row exists. -/
def rowValid (p i H : Nat) : Bool := decide (rowOf p i < H)

/-- R122: one bit. A row beyond the image gives 0 whatever the threshold, and `img` is not evaluated there. -/
def pixelBit (img : Image) (H : Nat) (t : Byte) (p c i : Nat) : Bool :=
  if rowValid p i H then on (img (rowOf p i) c) t else false

/-- R123: `ceil(H / 8)`. -/
def pageCount (H : Nat) : Nat := (H + 7) / 8

/-- R124: the sum over `i = 0 .. 7` of `bit(i) * 2^i`, as a number. -/
def packSum (img : Image) (H : Nat) (t : Byte) (p c : Nat) : Nat :=
  ((List.range 8).map fun i => (pixelBit img H t p c i).toNat * 2 ^ i).sum

/-- R124: one packed byte. -/
def packbyte (img : Image) (H : Nat) (t : Byte) (p c : Nat) : Byte := BitVec.ofNat 8 (packSum img H t p c)

/-- R125: how many rows of page `p` exist. -/
def nrows (p H : Nat) : Nat := min 8 (H - 8 * p)

/-- R125: the mask of the rows that exist, `2^nrows - 1`. -/
def vmask (p H : Nat) : Byte := BitVec.ofNat 8 (2 ^ nrows p H - 1)

/-- R127: one page, in column order. -/
def packpage (img : Image) (W H : Nat) (t : Byte) (p : Nat) : List Byte :=
  (List.range W).map fun c => packbyte img H t p c

/-- R128: the whole image, in page order. -/
def packimage (img : Image) (W H : Nat) (t : Byte) : List Byte :=
  (List.range (pageCount H)).flatMap fun p => packpage img W H t p

end Sys2Proof.Machine
end

