-- ==== Sys2Proof/Syntax.lean ====
section
/-! DEFINITION. The ten commands of 30_encoding R87, and the lines an assembler takes (R90, R91). -/

namespace Sys2Proof

/-- The commands, in the order of the opcode table. Class I commands carry their 16-bit immediate,
class N commands carry nothing (R85). No command names a register. -/
inductive Instr where
  /-- SETTHR imm, 40_config R102. -/
  | setthr (imm : Half)
  /-- SETW imm, R103. -/
  | setw (imm : Half)
  /-- SETH imm, R104. -/
  | seth (imm : Half)
  /-- SETPAGE imm, R105. -/
  | setpage (imm : Half)
  /-- SETCOL imm, R106. -/
  | setcol (imm : Half)
  /-- NOP, R101. -/
  | nop
  /-- PACKCOL, 41_pack R134. -/
  | packcol
  /-- PACKPAGE, R135. -/
  | packpage
  /-- PACKIMG, R136. -/
  | packimg
  /-- END, 42_control R151 (`end` is a word of Lean). -/
  | endRun
deriving DecidableEq, Repr

/-- One line of assembler source that is not blank: a command or a pseudo-instruction with its operands as
written, which may be out of range (R90, R91). -/
inductive Source where
  /-- SETTHR n -/
  | setthr (n : Nat)
  /-- SETW n -/
  | setw (n : Nat)
  /-- SETH n -/
  | seth (n : Nat)
  /-- SETPAGE n -/
  | setpage (n : Nat)
  /-- SETCOL n -/
  | setcol (n : Nat)
  /-- NOP -/
  | nop
  /-- PACKCOL -/
  | packcol
  /-- PACKPAGE -/
  | packpage
  /-- PACKIMG -/
  | packimg
  /-- END -/
  | endRun
  /-- SETDIM w, h: stands for SETW w then SETH h (R91). -/
  | setdim (w h : Nat)
  /-- PACKPAGES n: stands for SETPAGE p then PACKPAGE, for p = 0 to n - 1 (R91). -/
  | packpages (n : Nat)
deriving DecidableEq, Repr

/-- The source line that spells a command. -/
def Instr.source : Instr → Source
  | .setthr imm => .setthr imm.toNat
  | .setw imm => .setw imm.toNat
  | .seth imm => .seth imm.toNat
  | .setpage imm => .setpage imm.toNat
  | .setcol imm => .setcol imm.toNat
  | .nop => .nop
  | .packcol => .packcol
  | .packpage => .packpage
  | .packimg => .packimg
  | .endRun => .endRun

end Sys2Proof
end

