-- ==== Sys2Proof/Decode.lean ====
section
/-! DEFINITION. The command format (30_encoding R84), the opcode map (R87), the total decoder (R88, R89), the
encoder (R89), and a command word kept in a byte memory (20_memory R61). -/

namespace Sys2Proof

/-! ### The fields of a word (R84, R86) -/

/-- `op = w[31:24]`. -/
def opField (w : Word) : Byte := w.extractLsb' 24 8

/-- `rsv = w[23:16]`. -/
def rsvField (w : Word) : Byte := w.extractLsb' 16 8

/-- `imm = w[15:0]`, used as it stands: no extension, scaling or shift (R86). -/
def immField (w : Word) : Half := w.extractLsb' 0 16

/-! ### Decoding (R88, R89) -/

/-- Why bits are no command. The spec's decoder answers one `Illegal`; the names say which of the three
grounds of R88 holds, in the order R89 tests them, and nothing depends on them (assumption 12). -/
inductive IllegalWord where
  /-- The reserved field is not zero. -/
  | reservedField
  /-- The opcode is none of the ten. -/
  | unassignedOpcode
  /-- A class N opcode with a non-zero immediate field. -/
  | operandNotZero
  /-- Fewer than four bytes were offered to `decodeBytes`; `decode` never answers this. -/
  | truncated
deriving DecidableEq, Repr

/-- What decoding answers. -/
inductive Decoded where
  /-- The word is this command. -/
  | command (i : Instr)
  /-- The word is no command. -/
  | illegal (why : IllegalWord)
deriving DecidableEq, Repr

/-- Whether the answer is R89's `Illegal`. -/
def Decoded.isIllegal : Decoded → Bool
  | .command _ => false
  | .illegal _ => true

/-- The command, where there is one. -/
def Decoded.toOption : Decoded → Option Instr
  | .command i => some i
  | .illegal _ => none

/-- A class N opcode is a command only with `imm = 0` (R84, R88). -/
def withoutOperand (imm : Half) (i : Instr) : Decoded :=
  if imm = 0#16 then .command i else .illegal .operandNotZero

/-- R89's decoder, test by test. -/
def decode (w : Word) : Decoded :=
  if rsvField w ≠ 0x00#8 then .illegal .reservedField
  else if opField w = 0x01#8 then .command (.setthr (immField w))
  else if opField w = 0x02#8 then .command (.setw (immField w))
  else if opField w = 0x03#8 then .command (.seth (immField w))
  else if opField w = 0x04#8 then .command (.setpage (immField w))
  else if opField w = 0x05#8 then .command (.setcol (immField w))
  else if opField w = 0x06#8 then withoutOperand (immField w) .nop
  else if opField w = 0x10#8 then withoutOperand (immField w) .packcol
  else if opField w = 0x11#8 then withoutOperand (immField w) .packpage
  else if opField w = 0x12#8 then withoutOperand (immField w) .packimg
  else if opField w = 0x7F#8 then withoutOperand (immField w) .endRun
  else .illegal .unassignedOpcode

/-! ### Encoding (R89) -/

/-- The word with the fields `op`, `rsv = 0`, `imm`: `(op << 24) | imm`. -/
def formatC (op : Byte) (imm : Half) : Word := (op.setWidth 32 <<< 24) ||| imm.setWidth 32

/-- R89's encoder: class I `(op << 24) | imm`, class N `op << 24`. -/
def encode : Instr → Word
  | .setthr imm => formatC 0x01#8 imm
  | .setw imm => formatC 0x02#8 imm
  | .seth imm => formatC 0x03#8 imm
  | .setpage imm => formatC 0x04#8 imm
  | .setcol imm => formatC 0x05#8 imm
  | .nop => formatC 0x06#8 0#16
  | .packcol => formatC 0x10#8 0#16
  | .packpage => formatC 0x11#8 0#16
  | .packimg => formatC 0x12#8 0#16
  | .endRun => formatC 0x7F#8 0#16

/-! ### The opcode map (R87) -/

/-- One row of R87's table: a word `w` is the command when `w & mask = pattern`. -/
structure OpRow where
  mnemonic : String
  pattern : Word
  mask : Word
deriving DecidableEq, Repr

/-- Whether a word is the row's command. -/
def OpRow.holds (r : OpRow) (w : Word) : Bool := w &&& r.mask = r.pattern

/-- The row of a command: class I commands fix bits 31:16, class N commands all 32. -/
def opRow : Instr → OpRow
  | .setthr _ => ⟨"SETTHR", 0x01000000#32, 0xFFFF0000#32⟩
  | .setw _ => ⟨"SETW", 0x02000000#32, 0xFFFF0000#32⟩
  | .seth _ => ⟨"SETH", 0x03000000#32, 0xFFFF0000#32⟩
  | .setpage _ => ⟨"SETPAGE", 0x04000000#32, 0xFFFF0000#32⟩
  | .setcol _ => ⟨"SETCOL", 0x05000000#32, 0xFFFF0000#32⟩
  | .nop => ⟨"NOP", 0x06000000#32, 0xFFFFFFFF#32⟩
  | .packcol => ⟨"PACKCOL", 0x10000000#32, 0xFFFFFFFF#32⟩
  | .packpage => ⟨"PACKPAGE", 0x11000000#32, 0xFFFFFFFF#32⟩
  | .packimg => ⟨"PACKIMG", 0x12000000#32, 0xFFFFFFFF#32⟩
  | .endRun => ⟨"END", 0x7F000000#32, 0xFFFFFFFF#32⟩

/-- R87's table, in its order. -/
def opTable : List OpRow :=
  [opRow (.setthr 0#16), opRow (.setw 0#16), opRow (.seth 0#16), opRow (.setpage 0#16), opRow (.setcol 0#16),
    opRow .nop, opRow .packcol, opRow .packpage, opRow .packimg, opRow .endRun]

/-! ### A command word in a byte memory (R61) -/

/-- The word whose bits 7:0 are the byte at the lowest address (little-endian, R61). -/
def wordOfBytes (b0 b1 b2 b3 : Byte) : Word :=
  b0.setWidth 32 ||| (b1.setWidth 32 <<< 8) ||| (b2.setWidth 32 <<< 16) ||| (b3.setWidth 32 <<< 24)

/-- The four bytes of a word, lowest address first (R61). -/
def bytesOfWord (w : Word) : List Byte :=
  [w.extractLsb' 0 8, w.extractLsb' 8 8, w.extractLsb' 16 8, w.extractLsb' 24 8]

/-- Decode the first command of any run of bytes, with the bytes that are left. A command is exactly four
bytes (R83, R61); a shorter run is refused by name. -/
def decodeBytes : List Byte → Decoded × List Byte
  | b0 :: b1 :: b2 :: b3 :: rest => (decode (wordOfBytes b0 b1 b2 b3), rest)
  | rest => (.illegal .truncated, rest)

/-- The word of a table row: bit 0 the least significant bit, the bits from `nbits` up zero. -/
def tableWord (nbits w : Nat) : Word := BitVec.ofNat 32 (w % 2 ^ nbits)

/-- The instruction the decoder reads from the bits `w` of a table row of `nbits` bits, laid out as
four bytes. Bits at or above 32 belong to no command (R83). -/
def decodeTableWord (nbits w : Nat) : Option Instr :=
  if w % 2 ^ nbits < 2 ^ 32 then (decodeBytes (bytesOfWord (tableWord nbits w))).1.toOption else none

end Sys2Proof
end

