-- ==== Sys2Proof/Machine/Flags.lean ====
section
/-! DEFINITION. The fields of STATUS (10_state R27) and the codes of CAUSE (60_exceptions R161). TP8 has no
condition flags (R29), so STATUS is the only flag-like state. -/

namespace Sys2Proof.Machine

/-- The code of a cause, the values of `STATUS.CAUSE` (R161). -/
def Cause.code : Cause → BitVec 3
  | .fetch => 1#3
  | .illegal => 2#3
  | .config => 3#3
  | .image => 4#3
  | .index => 5#3
  | .outbound => 6#3

/-- `STATUS.HALT`, bit 0. -/
def State.halt (s : State) : Bool := s.status.getLsbD 0

/-- `STATUS.FAULT`, bit 1. -/
def State.fault (s : State) : Bool := s.status.getLsbD 1

/-- `STATUS.CAUSE`, bits 4:2. -/
def State.cause (s : State) : BitVec 3 := s.status.extractLsb' 2 3

/-- `STATUS[7:5]`, reserved. -/
def State.reserved (s : State) : BitVec 3 := s.status.extractLsb' 5 3

/-- The block is stopped: `STATUS.HALT = 1` or `STATUS.FAULT = 1` (R150, R155). -/
def State.stopped (s : State) : Bool := s.halt || s.fault

/-- `HALT <- 1`, every other bit kept (R151). -/
def statusHalted (status : Byte) : Byte := status ||| 0x01#8

/-- `FAULT <- 1; CAUSE <- k`, every other bit kept (R171). -/
def statusFaulted (k : Cause) (status : Byte) : Byte :=
  (status &&& 0xE1#8) ||| 0x02#8 ||| (k.code.setWidth 8 <<< 2)

end Sys2Proof.Machine
end

