-- ==== Sys2Proof/Machine/Ops.lean ====
section
/-! DEFINITION. The named operations on memory and state that every command is made of: reading and writing
an address space, writing a register, taking a fault, halting, resetting, fetching. -/

namespace Sys2Proof.Machine

/-! ### Memories (20_memory R50 to R53) -/

/-- What an address that is not listed reads as. DESIGN CHOICE (assumption 2): the form a memory is kept in;
the host binds every address below the length, whatever it holds. -/
def Memory.unlisted (w : Nat) : BitVec w := 0#w

/-- What stands at an address: `MemRead(SPACE, addr, 1)` of R10. -/
def Memory.read {w : Nat} : Memory w → Nat → BitVec w
  | [], _ => Memory.unlisted w
  | (b, v) :: rest, a => if b = a then v else Memory.read rest a

/-- Take an address off the list. -/
def Memory.erase {w : Nat} (m : Memory w) (a : Nat) : Memory w := m.filter fun c => decide (c.1 ≠ a)

/-- Put a value at an address, in its place among the rising addresses. -/
def Memory.insertAt {w : Nat} : Memory w → Nat → BitVec w → Memory w
  | [], a, v => [(a, v)]
  | (b, x) :: rest, a, v =>
    if a < b then (a, v) :: (b, x) :: rest
    else if a = b then (a, v) :: rest
    else (b, x) :: Memory.insertAt rest a v

/-- `MemWrite(SPACE, addr, 1, v)` of R10, keeping the canonical form: writing the value an unlisted address
reads as removes the entry. -/
def Memory.write {w : Nat} (m : Memory w) (a : Nat) (v : BitVec w) : Memory w :=
  if v = Memory.unlisted w then m.erase a else m.insertAt a v

/-- Writes made one after another, the first of the list first (R64: the later one wins). -/
def Memory.writeAll {w : Nat} (m : Memory w) (ws : List (Nat × BitVec w)) : Memory w :=
  ws.foldl (fun m c => m.write c.1 c.2) m

/-- Canonical from an address up: every entry at or above `lo`, strictly rising, none that an unlisted address
would give. -/
def Memory.wfFrom {w : Nat} : Nat → Memory w → Bool
  | _, [] => true
  | lo, (b, v) :: rest => decide (lo ≤ b) && decide (v ≠ Memory.unlisted w) && Memory.wfFrom (b + 1) rest

/-- The canonical form of a memory. -/
def Memory.wf {w : Nat} (m : Memory w) : Bool := Memory.wfFrom 0 m

/-- Every listed address is below the length: nothing stands where the spec says no location is (R50). -/
def Memory.inside {w : Nat} (len : Word) (m : Memory w) : Bool := m.all fun c => decide (c.1 < len.toNat)

/-- The memory that holds `values` from address `a` up. -/
def Memory.ofListFrom {w : Nat} (a : Nat) : List (BitVec w) → Memory w
  | [] => []
  | v :: rest =>
    if v = Memory.unlisted w then Memory.ofListFrom (a + 1) rest else (a, v) :: Memory.ofListFrom (a + 1) rest

/-- The memory that holds `values` from address 0 up (every space has base 0, R58). -/
def Memory.ofList {w : Nat} (values : List (BitVec w)) : Memory w := Memory.ofListFrom 0 values

/-- What stands at addresses 0 to `n - 1`. -/
def Memory.toList {w : Nat} (m : Memory w) (n : Nat) : List (BitVec w) := (List.range n).map m.read

/-! ### Registers: one writer each (10_state R37) -/

/-- `PC <- PC + 1` (R23). -/
def State.advance (s : State) : State := { s with pc := s.pc + 1#32 }

/-- `THR <- v` (R24). -/
def State.setThr (s : State) (v : Byte) : State := { s with thr := v }

/-- `WIDTH <- v` (R25). -/
def State.setWidth (s : State) (v : Half) : State := { s with width := v }

/-- `HEIGHT <- v` (R26). -/
def State.setHeight (s : State) (v : Half) : State := { s with height := v }

/-- `PAGE <- v` (R21). -/
def State.setPage (s : State) (v : Half) : State := { s with page := v }

/-- `COL <- v` (R22). -/
def State.setCol (s : State) (v : Half) : State := { s with col := v }

/-- `STATUS.HALT <- 1` (42_control R151). -/
def State.markHalted (s : State) : State := { s with status := statusHalted s.status }

/-- Taking a fault, the one way a fault of the block happens (60_exceptions R171): `FAULT <- 1`,
`CAUSE <- k`, "nothing else changes". No register saves PC, since PC stays on the faulting command; there is
no handler and no mode. Nothing returns from a fault (R173): only `State.applyReset` clears it. -/
def State.takeFault (k : Cause) (s : State) : State := { s with status := statusFaulted k s.status }

/-- The reset action (70_reset_and_hazards R190, R192): the seven registers take their reset values, PROG,
IMG, OUT and their lengths are not touched. -/
def State.applyReset (s : State) : State :=
  { State.reset with
    prog := s.prog, progLen := s.progLen, img := s.img, imgLen := s.imgLen, out := s.out, outLen := s.outLen }

/-- Writes to OUT, in order. -/
def State.writeOut (s : State) (ws : List Host.Cell) : State := { s with out := s.out.writeAll ws }

/-! ### Fetching a command (42_control R150, 20_memory R51) -/

/-- `PC < PROG_LEN`: there is a command to fetch (R162). -/
def State.canFetch (s : State) : Bool := decide (s.pc.toNat < s.progLen.toNat)

/-- `MemRead(PROG, PC, 1)`: the word the next command is decoded from. -/
def State.fetchWord (s : State) : Word := s.prog.read s.pc.toNat

/-! ### Tests that raise (60_exceptions R170) -/

/-- One test of a command: the condition under which it raises, and the cause it raises. -/
structure Test where
  raises : Bool
  cause : Cause
deriving DecidableEq, Repr

/-- The first test that fails decides (R170). -/
def firstRaised : List Test → Option Cause
  | [] => none
  | t :: rest => if t.raises then some t.cause else firstRaised rest

/-- A command with tests: the first that fails raises its fault and nothing is written; if none fails the
writes to OUT are made and PC advances (00_scope R10, R54). -/
def guarded (tests : List Test) (writes : List Host.Cell) (s : State) : Host.Outcome State Fault Refusal :=
  match firstRaised tests with
  | some k => .next (s.takeFault k)
  | none => .next ((s.writeOut writes).advance)

/-! ### Placing a command where the next fetch reads -/

/-- The host's load of one command for the next step to run (assumption 4): word `w` stands in PROG at PC and
PROG_LEN covers it. A stopped block fetches nothing, so STATUS is cleared if it is stopped; at
`PC = 2^32 - 1`, where no length covers PC (R23), the word is placed at 0 instead. -/
def State.placeCommand (s : State) (w : Word) : State :=
  let pc := if s.pc = 0xFFFFFFFF#32 then 0#32 else s.pc
  { s with
    pc := pc
    status := if s.stopped then 0x00#8 else s.status
    prog := s.prog.write pc.toNat w
    progLen := if pc.toNat < s.progLen.toNat then s.progLen else pc + 1#32 }

end Sys2Proof.Machine
end

