-- ==== Sys2Proof/Machine/Operands.lean ====
section
/-! DEFINITION. The operand forms: the 16-bit immediate (30_encoding R86), the image and output addresses
(20_memory R55, R56), and the conditions a PACK command tests on its register operands (41_pack R133 to
R136). Every product, sum and comparison is on exact natural numbers (R130). -/

namespace Sys2Proof.Machine

/-- The threshold operand of SETTHR: `imm[7:0]` when `imm <= 255`, and none otherwise (R86). -/
def thresholdOperand (imm : Half) : Option Byte :=
  if imm.toNat ≤ 255 then some (imm.extractLsb' 0 8) else none

/-- The `IMG` address of the sample of a row and a column: `row * WIDTH + c` (R55). -/
def State.imgAddress (s : State) (row c : Nat) : Nat := row * s.width.toNat + c

/-- The sample `img(row, c) = MemRead(IMG, row * WIDTH + c, 1)` (00_scope R10). -/
def State.imgAt (s : State) : Image := fun row c => s.img.read (s.imgAddress row c)

/-- The `OUT` address of the packed byte of page `p` and column `c`: `p * WIDTH + c` (R56). -/
def State.outAddress (s : State) (p c : Nat) : Nat := p * s.width.toNat + c

/-- `pageCount(HEIGHT)`. -/
def State.pages (s : State) : Nat := pageCount s.height.toNat

/-- R133: `IMG_LEN != WIDTH * HEIGHT`, equality and not "at least". -/
def State.imageMisfits (s : State) : Bool := decide (s.imgLen.toNat ≠ s.width.toNat * s.height.toNat)

/-- `PAGE >= pageCount(HEIGHT)`. -/
def State.pageBeyond (s : State) : Bool := decide (s.pages ≤ s.page.toNat)

/-- `COL >= WIDTH`. -/
def State.colBeyond (s : State) : Bool := decide (s.width.toNat ≤ s.col.toNat)

/-- PACKCOL: `PAGE * WIDTH + COL >= OUT_LEN` (R134). -/
def State.colOverruns (s : State) : Bool := decide (s.outLen.toNat ≤ s.outAddress s.page.toNat s.col.toNat)

/-- PACKPAGE: `(PAGE + 1) * WIDTH > OUT_LEN` (R135). -/
def State.pageOverruns (s : State) : Bool := decide (s.outLen.toNat < (s.page.toNat + 1) * s.width.toNat)

/-- PACKIMG: `pageCount(HEIGHT) * WIDTH > OUT_LEN` (R136). -/
def State.imageOverruns (s : State) : Bool := decide (s.outLen.toNat < s.pages * s.width.toNat)

end Sys2Proof.Machine
end

