-- ==== Sys2Proof/Machine/Configure.lean ====
section
/-! DEFINITION. The configuration commands NOP, SETTHR, SETW, SETH, SETPAGE, SETCOL (40_config). None reads or
writes IMG or OUT, and a SET command tests nothing about the other registers (R100). -/

namespace Sys2Proof.Machine

/-- SETTHR imm (R102): CONFIG when `imm > 255`, else `THR <- imm[7:0]`. -/
def execSetthr (imm : Half) (s : State) : Host.Outcome State Fault Refusal :=
  match thresholdOperand imm with
  | some t => .next ((s.setThr t).advance)
  | none => .next (s.takeFault .config)

/-- SETW imm (R103). -/
def execSetw (imm : Half) (s : State) : Host.Outcome State Fault Refusal := .next ((s.setWidth imm).advance)

/-- SETH imm (R104). -/
def execSeth (imm : Half) (s : State) : Host.Outcome State Fault Refusal := .next ((s.setHeight imm).advance)

/-- SETPAGE imm (R105). -/
def execSetpage (imm : Half) (s : State) : Host.Outcome State Fault Refusal := .next ((s.setPage imm).advance)

/-- SETCOL imm (R106). -/
def execSetcol (imm : Half) (s : State) : Host.Outcome State Fault Refusal := .next ((s.setCol imm).advance)

/-- NOP (R101). -/
def execNop (s : State) : Host.Outcome State Fault Refusal := .next s.advance

end Sys2Proof.Machine
end

