-- ==== Sys2Proof/Machine/Control.lean ====
section
/-! DEFINITION. The control command END (42_control R151) and the sequencer, which decides what a step does
before any command runs (R150). -/

namespace Sys2Proof.Machine

/-- END (R151): `STATUS.HALT <- 1`, PC not changed. -/
def execEndRun (s : State) : Host.Outcome State Fault Refusal := .next s.markHalted

/-- What the sequencer finds at the start of a step. -/
inductive Sequenced where
  /-- The block is stopped: no step. -/
  | stopped
  /-- The sequencer raises FETCH or ILLEGAL. -/
  | raises (k : Cause)
  /-- This command executes. -/
  | executes (i : Instr)
deriving DecidableEq, Repr

/-- R150's step up to `execute cmd`: stopped, then FETCH, then ILLEGAL, then the command (the order of
60_exceptions R170). -/
def sequence (s : State) : Sequenced :=
  if s.stopped then .stopped
  else if !s.canFetch then .raises .fetch
  else match decode s.fetchWord with
    | .command i => .executes i
    | .illegal _ => .raises .illegal

end Sys2Proof.Machine
end

