-- ==== Sys2Proof/Machine/Pack.lean ====
section
/-! DEFINITION. The pack commands PACKCOL, PACKPAGE and PACKIMG (41_pack Part 3), written from their
pseudocode: the tests in the order written, then the inner loop over the bits, then one write of OUT for
each (page, column). The writes are listed pages ascending and columns ascending (42_control R153), which
decides nothing but the list: they go to different addresses and feed no read (20_memory R64). -/

namespace Sys2Proof.Machine

/-- One turn of the loop `for i in 0 .. 7`: `r = 8p + i; if r < HEIGHT: if s >= THR: b = b | (1 << i)`. The
sample is read only where the row exists (R132). -/
def packStep (img : Image) (H : Nat) (t : Byte) (p c : Nat) (b : Byte) (i : Nat) : Byte :=
  if 8 * p + i < H then (if t.toNat ≤ (img (8 * p + i) c).toNat then b ||| (1#8 <<< i) else b) else b

/-- The loop, from `b = 0`. -/
def packLoop (img : Image) (H : Nat) (t : Byte) (p c : Nat) : Byte :=
  (List.range 8).foldl (packStep img H t p c) 0#8

/-- The `IMG` addresses the loop reads for a (page, column) pair, in order: one for each row that exists and
none for the others (R132, D24). -/
def State.cellReads (s : State) (p c : Nat) : List Nat :=
  ((List.range 8).filter fun i => decide (8 * p + i < s.height.toNat)).map fun i => s.imgAddress (8 * p + i) c

/-- `MemWrite(OUT, p * WIDTH + c, 1, b)` for one (page, column) pair. -/
def State.cellWrite (s : State) (p c : Nat) : Host.Cell :=
  (s.outAddress p c, packLoop s.imgAt s.height.toNat s.thr p c)

/-- The writes of a page, columns ascending. -/
def State.pageWrites (s : State) (p : Nat) : List Host.Cell := (List.range s.width.toNat).map fun c => s.cellWrite p c

/-- The writes of the whole image, pages ascending. -/
def State.imageWrites (s : State) : List Host.Cell := (List.range s.pages).flatMap fun p => s.pageWrites p

/-- The reads of a page. -/
def State.pageReads (s : State) (p : Nat) : List Nat := (List.range s.width.toNat).flatMap fun c => s.cellReads p c

/-- The reads of the whole image. -/
def State.imageReads (s : State) : List Nat := (List.range s.pages).flatMap fun p => s.pageReads p

/-- PACKCOL's tests, in the order of R134. -/
def packcolTests (s : State) : List Test :=
  [⟨s.imageMisfits, .image⟩, ⟨s.pageBeyond || s.colBeyond, .index⟩, ⟨s.colOverruns, .outbound⟩]

/-- PACKPAGE's tests, in the order of R135. -/
def packpageTests (s : State) : List Test :=
  [⟨s.imageMisfits, .image⟩, ⟨s.pageBeyond, .index⟩, ⟨s.pageOverruns, .outbound⟩]

/-- PACKIMG's tests, in the order of R136: INDEX cannot happen. -/
def packimgTests (s : State) : List Test := [⟨s.imageMisfits, .image⟩, ⟨s.imageOverruns, .outbound⟩]

/-- PACKCOL (R134). -/
def execPackcol (s : State) : Host.Outcome State Fault Refusal :=
  guarded (packcolTests s) [s.cellWrite s.page.toNat s.col.toNat] s

/-- PACKPAGE (R135). -/
def execPackpage (s : State) : Host.Outcome State Fault Refusal :=
  guarded (packpageTests s) (s.pageWrites s.page.toNat) s

/-- PACKIMG (R136). -/
def execPackimg (s : State) : Host.Outcome State Fault Refusal := guarded (packimgTests s) s.imageWrites s

end Sys2Proof.Machine
end

