-- ==== Sys2Proof/Machine/Dispatch.lean ====
section
/-! DEFINITION. One arm per command: `execute cmd` of 42_control R150. It runs the command whatever STATUS says;
that a stopped block runs nothing is the sequencer's (assumption 7). -/

namespace Sys2Proof.Machine

open Sys2Proof

def exec (i : Instr) (s : State) : Host.Outcome State Fault Refusal :=
  match i with
  | .setthr imm => Sys2Proof.Machine.execSetthr imm s
  | .setw imm => Sys2Proof.Machine.execSetw imm s
  | .seth imm => Sys2Proof.Machine.execSeth imm s
  | .setpage imm => Sys2Proof.Machine.execSetpage imm s
  | .setcol imm => Sys2Proof.Machine.execSetcol imm s
  | .nop => Sys2Proof.Machine.execNop s
  | .packcol => Sys2Proof.Machine.execPackcol s
  | .packpage => Sys2Proof.Machine.execPackpage s
  | .packimg => Sys2Proof.Machine.execPackimg s
  | .endRun => Sys2Proof.Machine.execEndRun s

end Sys2Proof.Machine
end

