-- ==== Sys2Proof/Machine/Step.lean ====
section
/-! DEFINITION. One step of the block (42_control R150) and the placing of a command where the next step
fetches. Everything here calls operations of the other files. -/

namespace Sys2Proof.Machine

/-- R150. A stopped block takes no step; a fault of the block is a next state (R171). -/
def step (s : State) : Host.Outcome State Fault Refusal :=
  match sequence s with
  | .stopped => .fault .stopped
  | .raises k => .next (s.takeFault k)
  | .executes i => exec i s

/-- `s` with the instruction of a table row placed where `step` fetches its next one. -/
def State.withFetchWord (s : State) (nbits w : Nat) : State := s.placeCommand (tableWord nbits w)

end Sys2Proof.Machine
end

