-- ==== Sys2Proof/Machine/Array.lean ====
section
/-! DEFINITION. The structure of the datapath (41_pack Part 2): the combinational cell (R126) and the array of
one cell per column of a page, done in passes over any number of physical cells (R131, 00_scope R8). -/

namespace Sys2Proof.Machine

/-- The inputs of a cell (R126). `samples i` is `Si`; where `V[i] = 0` it is not driven and may be anything. -/
structure CellInput where
  threshold : Byte
  valid : Byte
  samples : Fin 8 → Byte

/-- `Gi = (Si >= T)`, an unsigned 8-bit magnitude comparator. -/
def CellInput.compare (x : CellInput) (i : Fin 8) : Bool := decide (x.threshold.toNat ≤ (x.samples i).toNat)

/-- `Bi = Gi & V[i]`. -/
def CellInput.gate (x : CellInput) (i : Fin 8) : Bool := x.compare i && x.valid.getLsbD i.val

/-- The output byte `B = (B7, B6, B5, B4, B3, B2, B1, B0)`, B7 most significant (R126). -/
def cellOutput (x : CellInput) : Byte :=
  BitVec.ofBool (x.gate 7) ++ BitVec.ofBool (x.gate 6) ++ BitVec.ofBool (x.gate 5) ++ BitVec.ofBool (x.gate 4) ++
    BitVec.ofBool (x.gate 3) ++ BitVec.ofBool (x.gate 2) ++ BitVec.ofBool (x.gate 1) ++ BitVec.ofBool (x.gate 0)

/-- The input `V` of every cell of page `p`: `V[i] = rowvalid(p, i, H)` (R126), the same for all columns. -/
def validInput (p H : Nat) : Byte := vmask p H

/-- The input of the cell of column `c` of page `p`. `undriven row c` is what stands on a sample wire
whose row does not exist. -/
def arrayInput (img undriven : Image) (H : Nat) (t : Byte) (p c : Nat) : CellInput where
  threshold := t
  valid := validInput p H
  samples := fun i => if rowValid p i.val H then img (rowOf p i.val) c else undriven (rowOf p i.val) c

/-- The per-page array of `W` cells used once (R131): cell `c` drives byte `c`. -/
def arrayPage (img undriven : Image) (W H : Nat) (t : Byte) (p : Nat) : List Byte :=
  (List.range W).map fun c => cellOutput (arrayInput img undriven H t p c)

/-- The columns that `n` physical cells do in pass number `k` of a page of `W` columns. -/
def passColumns (n W k : Nat) : List Nat := ((List.range n).map fun j => k * n + j).filter fun c => decide (c < W)

/-- How many passes `n` physical cells need. -/
def passCount (n W : Nat) : Nat := (W + n - 1) / n

/-- A page done by `n` physical cells in several passes (R131; `n` is N_CELLS of 00_scope R8). -/
def pageInPasses (n : Nat) (img undriven : Image) (W H : Nat) (t : Byte) (p : Nat) : List Byte :=
  (List.range (passCount n W)).flatMap fun k =>
    (passColumns n W k).map fun c => cellOutput (arrayInput img undriven H t p c)

end Sys2Proof.Machine
end

