-- ==== Sys2Proof/WellFormed.lean ====
section
/-! DEFINITION. Which source lines the assembler accepts (30_encoding R90, R91). A command of `Instr`
carries its immediate as 16 bits, so every one of them is well formed: an out-of-range operand can
be written only in a source line, and is refused there. -/

namespace Sys2Proof

/-- The range of an operand, "0 to 65535" (R90). SETTHR has the same range: its operands 256 to 65535 "assemble
and then fault when executed". -/
def operandOk (n : Nat) : Bool := n ≤ 65535

/-- The range of the number of PACKPAGES, "0 to 8192" (R91). -/
def pageNumberOk (n : Nat) : Bool := n ≤ 8192

/-- The check on a source line. -/
def Source.wf : Source → Bool
  | .setthr n => operandOk n
  | .setw n => operandOk n
  | .seth n => operandOk n
  | .setpage n => operandOk n
  | .setcol n => operandOk n
  | .setdim w h => operandOk w && operandOk h
  | .packpages n => pageNumberOk n
  | .nop | .packcol | .packpage | .packimg | .endRun => true

/-- A command is well formed when the line that spells it is. -/
def Instr.wf (i : Instr) : Bool := i.source.wf

end Sys2Proof
end

