-- ==== Sys2Proof/Machine/Sequence.lean ====
section
/-! DEFINITION. Commands run one after another as the sequencer runs consecutive words of PROG, and the
command sequences that the pseudo-instructions stand for (30_encoding R91, 41_pack R137, R138). -/

namespace Sys2Proof.Machine

/-- Execute commands in order. A block that has stopped runs no further command (42_control R150). -/
def runCommands : List Instr → State → Host.Outcome State Fault Refusal
  | [], s => .next s
  | i :: rest, s =>
    if s.stopped then .next s
    else match exec i s with
      | .next t => runCommands rest t
      | .fault r => .fault r
      | .refused r => .refused r

/-- `SETPAGE p; PACKPAGE` (R91). -/
def packPageNumber (p : Nat) : List Instr := [.setpage (BitVec.ofNat 16 p), .packpage]

/-- `SETCOL c; PACKCOL` (R138). -/
def packColumnNumber (c : Nat) : List Instr := [.setcol (BitVec.ofNat 16 c), .packcol]

/-- The expansion of `PACKPAGES n`: for `p` = 0 to `n - 1` in that order (R91). -/
def packPages (n : Nat) : List Instr := (List.range n).flatMap packPageNumber

/-- `SETCOL 0; PACKCOL; ...; SETCOL n-1; PACKCOL` (R138). -/
def packColumns (n : Nat) : List Instr := (List.range n).flatMap packColumnNumber

/-- The commands a source line stands for (R91); a line with an operand out of range is refused before. -/
def Source.expand : Source → List Instr
  | .setthr n => [.setthr (BitVec.ofNat 16 n)]
  | .setw n => [.setw (BitVec.ofNat 16 n)]
  | .seth n => [.seth (BitVec.ofNat 16 n)]
  | .setpage n => [.setpage (BitVec.ofNat 16 n)]
  | .setcol n => [.setcol (BitVec.ofNat 16 n)]
  | .nop => [.nop]
  | .packcol => [.packcol]
  | .packpage => [.packpage]
  | .packimg => [.packimg]
  | .endRun => [.endRun]
  | .setdim w h => [.setw (BitVec.ofNat 16 w), .seth (BitVec.ofNat 16 h)]
  | .packpages n => packPages n

end Sys2Proof.Machine
end

