-- ==== Sys2Proof/Machine/Assembler.lean ====
section
/-! DEFINITION. The assembler (30_encoding R90, R91): one command per line, the mnemonic in capitals, an
unsigned operand in decimal or with `0x` in hexadecimal, `;` to the end of the line a comment, no labels.
What R90 leaves open (blanks between words, lines without a command, the case of hexadecimal digits) is
assumption 11. -/

namespace Sys2Proof.Machine

/-- Why a line is rejected. -/
inductive AsmError where
  /-- The first word is no mnemonic, in capitals, of R87 or R91. -/
  | unknownMnemonic
  /-- The operands are not the number of unsigned integers the mnemonic takes. -/
  | badOperands
  /-- An operand is out of its range. -/
  | operandOutOfRange
deriving DecidableEq, Repr

/-- The line without its comment. -/
def stripComment (line : List Char) : List Char := line.takeWhile fun c => c ≠ ';'

/-- A character that separates words. -/
def isBlank (c : Char) : Bool := c = ' ' || c = '\t' || c = '\r'

/-- Close the word being gathered. -/
def flushWord (gathered : List Char) (rest : List (List Char)) : List (List Char) :=
  if gathered = [] then rest else gathered :: rest

/-- Take one character, from the right end of the line to the left: the word being gathered and the words
to its right. A comma is a word of its own. -/
def takeChar (c : Char) (state : List Char × List (List Char)) : List Char × List (List Char) :=
  if isBlank c then ([], flushWord state.1 state.2)
  else if c = ',' then ([], [','] :: flushWord state.1 state.2)
  else (c :: state.1, state.2)

/-- The words of a line. -/
def lineWords (line : List Char) : List (List Char) :=
  let state := (stripComment line).foldr takeChar ([], [])
  flushWord state.1 state.2

/-- The value of a decimal digit. -/
def decimalDigit (c : Char) : Option Nat :=
  if '0' ≤ c ∧ c ≤ '9' then some (c.toNat - '0'.toNat) else none

/-- The value of a hexadecimal digit, in either case. -/
def hexDigit (c : Char) : Option Nat :=
  if 'A' ≤ c ∧ c ≤ 'F' then some (c.toNat - 'A'.toNat + 10)
  else if 'a' ≤ c ∧ c ≤ 'f' then some (c.toNat - 'a'.toNat + 10)
  else decimalDigit c

/-- Digits, most significant first, onto an accumulated value. -/
def digitsValue (base : Nat) (digit : Char → Option Nat) : Nat → List Char → Option Nat
  | acc, [] => some acc
  | acc, c :: rest => match digit c with
    | some d => digitsValue base digit (acc * base + d) rest
    | none => none

/-- An unsigned integer, decimal or `0x` hexadecimal (R90). -/
def numberValue : List Char → Option Nat
  | [] => none
  | ['0', 'x'] => none
  | '0' :: 'x' :: digits => digitsValue 16 hexDigit 0 digits
  | digits => digitsValue 10 decimalDigit 0 digits

/-- The operand of a class I mnemonic. -/
def oneOperand (f : Nat → Source) : List (List Char) → Except AsmError Source
  | [w] => match numberValue w with
    | some n => .ok (f n)
    | none => .error .badOperands
  | _ => .error .badOperands

/-- A class N mnemonic takes no operand. -/
def noOperand (src : Source) : List (List Char) → Except AsmError Source
  | [] => .ok src
  | _ => .error .badOperands

/-- The operands `w, h` of SETDIM. -/
def twoOperands (f : Nat → Nat → Source) : List (List Char) → Except AsmError Source
  | [w, [','], h] => match numberValue w, numberValue h with
    | some m, some n => .ok (f m n)
    | _, _ => .error .badOperands
  | _ => .error .badOperands

/-- The line of a mnemonic and its operand words. -/
def mnemonicLine (mnemonic : List Char) (operands : List (List Char)) : Except AsmError Source :=
  if mnemonic = ['S', 'E', 'T', 'T', 'H', 'R'] then oneOperand .setthr operands
  else if mnemonic = ['S', 'E', 'T', 'W'] then oneOperand .setw operands
  else if mnemonic = ['S', 'E', 'T', 'H'] then oneOperand .seth operands
  else if mnemonic = ['S', 'E', 'T', 'P', 'A', 'G', 'E'] then oneOperand .setpage operands
  else if mnemonic = ['S', 'E', 'T', 'C', 'O', 'L'] then oneOperand .setcol operands
  else if mnemonic = ['N', 'O', 'P'] then noOperand .nop operands
  else if mnemonic = ['P', 'A', 'C', 'K', 'C', 'O', 'L'] then noOperand .packcol operands
  else if mnemonic = ['P', 'A', 'C', 'K', 'P', 'A', 'G', 'E'] then noOperand .packpage operands
  else if mnemonic = ['P', 'A', 'C', 'K', 'I', 'M', 'G'] then noOperand .packimg operands
  else if mnemonic = ['E', 'N', 'D'] then noOperand .endRun operands
  else if mnemonic = ['S', 'E', 'T', 'D', 'I', 'M'] then twoOperands .setdim operands
  else if mnemonic = ['P', 'A', 'C', 'K', 'P', 'A', 'G', 'E', 'S'] then oneOperand .packpages operands
  else .error .unknownMnemonic

/-- The commands of one line; none for a line that is blank but for a comment. -/
def assembleLine (line : List Char) : Except AsmError (List Instr) :=
  match lineWords line with
  | [] => .ok []
  | mnemonic :: operands => match mnemonicLine mnemonic operands with
    | .error e => .error e
    | .ok src => if src.wf then .ok (Source.expand src) else .error .operandOutOfRange

/-- The commands of a program, in order. -/
def assembleCommands : List (List Char) → Except AsmError (List Instr)
  | [] => .ok []
  | line :: rest => match assembleLine line, assembleCommands rest with
    | .ok here, .ok after => .ok (here ++ after)
    | .error e, _ => .error e
    | .ok _, .error e => .error e

/-- The command words of a program: element `k` goes to PROG address `k`, and PROG_LEN is their number (R90). -/
def assemble (lines : List (List Char)) : Except AsmError (List Word) :=
  match assembleCommands lines with
  | .ok is => .ok (is.map encode)
  | .error e => .error e

end Sys2Proof.Machine
end

