-- ==== Sys2Proof/Machine/Ports.lean ====
section
/-! DEFINITION. The transaction-level ports of 10_state R35: what each port carries, and the memory traffic of
one step. It is read off the same tests, writes and reads the commands are made of; no command depends on it. -/

namespace Sys2Proof.Machine

/-- One transaction on the memory ports. -/
inductive BusEvent where
  /-- `prog_addr`, `prog_data`. -/
  | progFetch (addr : Word) (data : Word)
  /-- `img_addr`, `img_data`. -/
  | imgRead (addr : Word) (data : Byte)
  /-- `out_addr`, `out_data` with `out_we = 1`. -/
  | outWrite (addr : Word) (data : Byte)
deriving DecidableEq, Repr

/-- The transactions of one (page, column) pair: the samples of the rows that exist, then the packed byte. -/
def State.cellEvents (s : State) (p c : Nat) : List BusEvent :=
  (s.cellReads p c).map (fun a => .imgRead (BitVec.ofNat 32 a) (s.img.read a)) ++
    [.outWrite (BitVec.ofNat 32 (s.cellWrite p c).1) (s.cellWrite p c).2]

/-- The transactions of one page, columns ascending (42_control R153). -/
def State.pageEvents (s : State) (p : Nat) : List BusEvent :=
  (List.range s.width.toNat).flatMap fun c => s.cellEvents p c

/-- The transactions of the whole image, pages ascending (R153). -/
def State.imageEvents (s : State) : List BusEvent := (List.range s.pages).flatMap fun p => s.pageEvents p

/-- A command that raises touches no memory (20_memory R54). -/
def unlessRaised (tests : List Test) (events : List BusEvent) : List BusEvent :=
  match firstRaised tests with
  | some _ => []
  | none => events

/-- The IMG and OUT transactions of a command. -/
def commandEvents : Instr → State → List BusEvent
  | .packcol, s => unlessRaised (packcolTests s) (s.cellEvents s.page.toNat s.col.toNat)
  | .packpage, s => unlessRaised (packpageTests s) (s.pageEvents s.page.toNat)
  | .packimg, s => unlessRaised (packimgTests s) s.imageEvents
  | .setthr _, _ => []
  | .setw _, _ => []
  | .seth _, _ => []
  | .setpage _, _ => []
  | .setcol _, _ => []
  | .nop, _ => []
  | .endRun, _ => []

/-- The transactions of one step. A stopped block and a FETCH fault make none (R162). -/
def stepEvents (s : State) : List BusEvent :=
  match sequence s with
  | .stopped => []
  | .raises .fetch => []
  | .raises _ => [.progFetch s.pc s.fetchWord]
  | .executes i => .progFetch s.pc s.fetchWord :: commandEvents i s

/-- The packed-byte writes among transactions. -/
def outWrites : List BusEvent → List (Word × Byte)
  | [] => []
  | .outWrite a b :: rest => (a, b) :: outWrites rest
  | .progFetch _ _ :: rest => outWrites rest
  | .imgRead _ _ :: rest => outWrites rest

/-- The `dbg` port: the registers other than STATUS, for the host to read (R35, R36). -/
structure Dbg where
  pc : Word
  page : Half
  col : Half
  thr : Byte
  width : Half
  height : Half
deriving DecidableEq, Repr

/-- The ports that show or carry a value between steps (R35). -/
structure Ports where
  progLen : Word
  imgLen : Word
  outLen : Word
  status : Byte
  dbg : Dbg
deriving DecidableEq, Repr

/-- What the ports show in a state. -/
def State.ports (s : State) : Ports :=
  { progLen := s.progLen, imgLen := s.imgLen, outLen := s.outLen, status := s.status,
    dbg := { pc := s.pc, page := s.page, col := s.col, thr := s.thr, width := s.width, height := s.height } }

/-- The `rst` port: with `rst = 1` the reset action happens, at any time (70_reset_and_hazards R190); with
`rst = 0` the block steps. Reset during a run ends that run without a result. -/
def stepWithReset (rst : Bool) (s : State) : Host.Outcome State Fault Refusal :=
  if rst then .next s.applyReset else step s

end Sys2Proof.Machine
end

