-- ==== Sys2Proof/Machine/HostSide.lean ====
section
/-! DEFINITION. What the host does outside a run: the launch (70_reset_and_hazards R193), the end of a run as it
reads it (42_control R155, R198, 60_exceptions R174), which bytes of OUT are results, and the Output Record it may
build of them, with the Header Encoder's contract (20_memory R57, R59), which is not part of the block. -/

namespace Sys2Proof.Machine

/-- What the host binds at a launch: contents of PROG, IMG and OUT, whose lengths are PROG_LEN, IMG_LEN, OUT_LEN. -/
structure Launch where
  prog : List Word
  img : List Byte
  out : List Byte
deriving DecidableEq, Repr

/-- Each length is 0 to `2^32 - 1` (R50). -/
def Launch.fits (l : Launch) : Bool :=
  decide (l.prog.length < 2 ^ 32) && decide (l.img.length < 2 ^ 32) && decide (l.out.length < 2 ^ 32)

/-- Bind the three memories and apply reset (R193, steps 1 to 4), to a block in any state. -/
def State.launch (s : State) (l : Launch) : State :=
  { s with
    prog := Memory.ofList l.prog, progLen := BitVec.ofNat 32 l.prog.length
    img := Memory.ofList l.img, imgLen := BitVec.ofNat 32 l.img.length
    out := Memory.ofList l.out, outLen := BitVec.ofNat 32 l.out.length }.applyReset

/-- PROG of a host that keeps it in a byte memory: four bytes a word, little-endian (R61). Bytes left over at
the end make no word. -/
def wordsOfBytes : List Byte → List Word
  | b0 :: b1 :: b2 :: b3 :: rest => wordOfBytes b0 b1 b2 b3 :: wordsOfBytes rest
  | _ => []

/-! ### The run -/

/-- The state after at most `n` steps, fewer if the block stops before (42_control R150, R197). -/
def runState : Nat → State → State
  | 0, s => s
  | n + 1, s =>
    match step s with
    | .next t => runState n t
    | .fault _ => s
    | .refused _ => s

/-- The transactions of those steps, in order. -/
def runEvents : Nat → State → List BusEvent
  | 0, _ => []
  | n + 1, s =>
    match step s with
    | .next t => stepEvents s ++ runEvents n t
    | .fault _ => []
    | .refused _ => []

/-- The packed bytes that the PACK commands of a run wrote, each at its `OUT` address, rising, a later write of
an address in the place of an earlier one (20_memory R64). A byte of value 0 is listed like any other. -/
def packedBytes (events : List BusEvent) : List Host.Cell :=
  (outWrites events).foldl (fun m x => Memory.insertAt m x.1.toNat x.2) []

/-- The only `OUT` addresses the host treats as results (R198). -/
def resultAddresses (events : List BusEvent) : List Nat := (packedBytes events).map Prod.fst

/-! ### The end of the run -/

/-- What the host may read as OUT: every byte of it, once the run has ended well, and none before that or after a
fault (R197, R198, R199, R174). Which of the bytes are results, `hostResult` says. -/
def State.hostOut (s : State) : Option (List Byte) :=
  if s.status = 0x01#8 then some (s.out.toList s.outLen.toNat) else none

/-- What the host gets back from the block (R155, R198). -/
inductive HostResult where
  /-- The run has not ended. -/
  | running
  /-- The run ended well, `STATUS = 0x01`: the results, each a written `OUT` address and the byte there. -/
  | good (results : List Host.Cell)
  /-- The run ended badly: the cause and the PC of the faulting command; OUT is discarded in full (R174). -/
  | discard (cause : BitVec 3) (pc : Word)
deriving DecidableEq, Repr

/-- The host reads STATUS, PC and, on a good end, OUT (R197), of which it treats "only the addresses that the
program's PACK commands wrote as results" (R198). `events` are the transactions of the run that led to `s`. -/
def hostResult (events : List BusEvent) (s : State) : HostResult :=
  if s.fault then .discard s.cause s.pc
  else if s.halt then .good ((resultAddresses events).map fun a => (a, s.out.read a))
  else .running

/-- A whole use of the block: launch, run to the stopping step, read (R193, R197). `PROG_LEN + 1` steps are
always enough (42_control R150). -/
def State.launchAndRun (s : State) (l : Launch) : HostResult :=
  hostResult (runEvents (l.prog.length + 1) (s.launch l)) (runState (l.prog.length + 1) (s.launch l))

/-! ### The Output Record -/

/-- The Header Encoder's contract (R59): the low and the high byte of each dimension, and none (`RangeError`)
when a dimension exceeds 65535 or is negative. No command performs it. -/
def headerEncode (width height : Int) : Option (List Byte) :=
  if 0 ≤ width ∧ width ≤ 65535 ∧ 0 ≤ height ∧ height ≤ 65535 then
    some [BitVec.ofInt 8 (width % 256), BitVec.ofInt 8 (width / 256),
      BitVec.ofInt 8 (height % 256), BitVec.ofInt 8 (height / 256)]
  else none

/-- The header of the dimensions a block holds: `WIDTH[7:0]`, `WIDTH[15:8]`, `HEIGHT[7:0]`, `HEIGHT[15:8]` (R59). -/
def State.header (s : State) : List Byte :=
  [s.width.extractLsb' 0 8, s.width.extractLsb' 8 8, s.height.extractLsb' 0 8, s.height.extractLsb' 8 8]

/-- Every `OUT` address of the image, 0 to `pageCount * WIDTH - 1` (20_memory R56), is a result of the run. -/
def State.imageIsPacked (events : List BusEvent) (s : State) : Bool :=
  (List.range (s.pages * s.width.toNat)).all fun a => decide (a ∈ resultAddresses events)

/-- The Output Record of R57: the header, then `pageCount * WIDTH` packed bytes; only from a run that ended well
(R174, R198). DEDUCED (assumption 19): the dimensions are those WIDTH and HEIGHT hold at the end. DESIGN CHOICE
(assumption 20): the spec does not say what the host forms where some byte of that image was never written, or lies
beyond OUT_LEN (SETW 1; SETH 8; END); the model forms no record, since only written addresses are results. -/
def outputRecord (events : List BusEvent) (s : State) : Option (List Byte) :=
  if s.status = 0x01#8 ∧ s.imageIsPacked events = true then some (s.header ++ s.out.toList (s.pages * s.width.toNat))
  else none

end Sys2Proof.Machine
end

