-- ==== Sys2Proof/Safety.lean ====
section
/-! DEFINITION. The terms claims about the machine are made in: how a run ends (42_control R155), which values
STATUS takes (10_state R28), the invariant of a state, the launch premises (70_reset_and_hazards R200). -/

namespace Sys2Proof.Machine

/-- The run ended well: `STATUS = 0x01` (R155). -/
abbrev State.endedWell (s : State) : Prop := s.status = 0x01#8

/-- The run ended badly: `STATUS.FAULT = 1` (R155). -/
abbrev State.endedBadly (s : State) : Prop := s.fault = true

/-- The values STATUS takes (R28): running, halted, faulted with cause 1 to 6. -/
def legalStatuses : List Byte := [0x00#8, 0x01#8, 0x06#8, 0x0A#8, 0x0E#8, 0x12#8, 0x16#8, 0x1A#8]

/-- STATUS is one of them. -/
abbrev State.statusLegal (s : State) : Prop := s.status ∈ legalStatuses

/-- The three memories are in canonical form and list no address at or beyond their lengths (20_memory R50). -/
structure State.MemoriesWf (s : State) : Prop where
  prog : s.prog.wf = true
  img : s.img.wf = true
  out : s.out.wf = true
  progInside : s.prog.inside s.progLen = true
  imgInside : s.img.inside s.imgLen = true
  outInside : s.out.inside s.outLen = true

/-- The invariant of the machine: legal STATUS (R28), `PC <= PROG_LEN` (R23, R155), memories as they should be. -/
structure State.Inv (s : State) : Prop where
  status : s.statusLegal
  pc : s.pc.toNat ≤ s.progLen.toNat
  memories : s.MemoriesWf

/-- The launch values are the same in two states: nothing a command may change. -/
structure SameLaunch (s t : State) : Prop where
  prog : t.prog = s.prog
  progLen : t.progLen = s.progLen
  img : t.img = s.img
  imgLen : t.imgLen = s.imgLen
  outLen : t.outLen = s.outLen

/-- The seven registers have the values of R34: the premise `Reset` of R200, which implies `NoFault`. -/
structure State.AtReset (s : State) : Prop where
  pc : s.pc = 0x00000000#32
  page : s.page = 0x0000#16
  col : s.col = 0x0000#16
  thr : s.thr = 0x80#8
  width : s.width = 0x0000#16
  height : s.height = 0x0000#16
  status : s.status = 0x00#8

/-- The premise `ImageFits(w, h)` of R200. -/
abbrev State.imageFits (s : State) (w h : Nat) : Prop := s.imgLen.toNat = w * h

/-- The premise `OutFits(w, h)` of R200. -/
abbrev State.outFits (s : State) (w h : Nat) : Prop := pageCount h * w ≤ s.outLen.toNat

end Sys2Proof.Machine
end

