-- ==== Sys2Proof/Certificates/Slice0/Obligations.lean ====
section
/-! DEFINITION. The statements for the provers, each from the rules of spec/ its docstring names. None is about
a program: where several commands stand in a row, the row is the one rule R137 or R138 writes out. -/

open Sys2Proof Sys2Proof.Machine

/-! ### Encoding -/

/-- 30_encoding R89: "`decode(encode(x)) = x` for every command `x` with `imm` in 0 to 65535", at every value of
the immediate, as a word and as the four bytes of the word in front of any others (R61). -/
def Obligations.DecodeOfEncode : Prop :=
  ∀ (i : Instr) (rest : List Byte),
    decode (encode i) = .command i ∧ decodeBytes (bytesOfWord (encode i) ++ rest) = (.command i, rest)

/-- R89: "`encode(decode(w)) = w` for every `w` that does not decode to `Illegal`". -/
def Obligations.EncodeOfDecode : Prop :=
  ∀ (w : Word) (i : Instr), decode w = .command i → encode i = w

/-- R87, the whole table: a word is the command when `w & mask = match`, and the ten patterns are disjoint. -/
def Obligations.CommandsAreTheTenPatterns : Prop :=
  (∀ w : Word,
    (∀ imm, decode w = .command (.setthr imm) ↔ w &&& 0xFFFF0000#32 = 0x01000000#32 ∧ imm = w.extractLsb' 0 16) ∧
    (∀ imm, decode w = .command (.setw imm) ↔ w &&& 0xFFFF0000#32 = 0x02000000#32 ∧ imm = w.extractLsb' 0 16) ∧
    (∀ imm, decode w = .command (.seth imm) ↔ w &&& 0xFFFF0000#32 = 0x03000000#32 ∧ imm = w.extractLsb' 0 16) ∧
    (∀ imm, decode w = .command (.setpage imm) ↔ w &&& 0xFFFF0000#32 = 0x04000000#32 ∧ imm = w.extractLsb' 0 16) ∧
    (∀ imm, decode w = .command (.setcol imm) ↔ w &&& 0xFFFF0000#32 = 0x05000000#32 ∧ imm = w.extractLsb' 0 16) ∧
    (decode w = .command .nop ↔ w &&& 0xFFFFFFFF#32 = 0x06000000#32) ∧
    (decode w = .command .packcol ↔ w &&& 0xFFFFFFFF#32 = 0x10000000#32) ∧
    (decode w = .command .packpage ↔ w &&& 0xFFFFFFFF#32 = 0x11000000#32) ∧
    (decode w = .command .packimg ↔ w &&& 0xFFFFFFFF#32 = 0x12000000#32) ∧
    (decode w = .command .endRun ↔ w &&& 0xFFFFFFFF#32 = 0x7F000000#32)) ∧
  opTable.Pairwise fun r r' => ∀ w : Word, ¬ (r.holds w = true ∧ r'.holds w = true)

/-- R88: the illegal words are those that match no row, that is an opcode other than the ten, a non-zero `rsv`,
or a non-zero `imm` in a class N command; executing one raises ILLEGAL and changes nothing else; SETTHR
with `imm > 255` is none of them. -/
def Obligations.IllegalWordsAreTheRest : Prop :=
  (∀ w : Word,
    ((decode w).isIllegal = true ↔ ∀ r ∈ opTable, r.holds w = false) ∧
    ((decode w).isIllegal = true ↔
      w.extractLsb' 16 8 ≠ 0x00#8 ∨
      w.extractLsb' 24 8 ∉
        [0x01#8, 0x02#8, 0x03#8, 0x04#8, 0x05#8, 0x06#8, 0x10#8, 0x11#8, 0x12#8, 0x7F#8] ∨
      (w.extractLsb' 24 8 ∈ [0x06#8, 0x10#8, 0x11#8, 0x12#8, 0x7F#8] ∧ w.extractLsb' 0 16 ≠ 0x0000#16))) ∧
  (∀ s : State, s.stopped = false → s.canFetch = true → (decode s.fetchWord).isIllegal = true →
    step s = .next (s.takeFault .illegal)) ∧
  (decode 0x00000000#32).isIllegal = true ∧ (decode 0xFFFFFFFF#32).isIllegal = true ∧
  ∀ imm : Half, 255 < imm.toNat → decode (0x01000000#32 ||| imm.setWidth 32) = .command (.setthr imm)

/-- The ten example words of R90, and words of R88's list (95_test_vectors T54 to T59). -/
def Obligations.ExampleWordsDecode : Prop :=
  decode 0x01000080#32 = .command (.setthr 128#16) ∧ decode 0x02000001#32 = .command (.setw 1#16) ∧
  decode 0x03000008#32 = .command (.seth 8#16) ∧ decode 0x04000001#32 = .command (.setpage 1#16) ∧
  decode 0x05000002#32 = .command (.setcol 2#16) ∧ decode 0x06000000#32 = .command .nop ∧
  decode 0x10000000#32 = .command .packcol ∧ decode 0x11000000#32 = .command .packpage ∧
  decode 0x12000000#32 = .command .packimg ∧ decode 0x7F000000#32 = .command .endRun ∧
  (decode 0x06000001#32).isIllegal = true ∧ (decode 0x02010003#32).isIllegal = true ∧
  (decode 0x7F000001#32).isIllegal = true ∧ (decode 0x07000000#32).isIllegal = true ∧
  (decode 0x13000000#32).isIllegal = true ∧ (decode 0x80000000#32).isIllegal = true

/-- 20_memory R61: where PROG is kept in a byte memory, the word at index `a` is at byte addresses `4a` to
`4a + 3` with bits 7:0 at `4a`, and reading the words back gives the program. -/
def Obligations.WordsInByteMemoryAreLittleEndian : Prop :=
  ∀ ws : List Word,
    wordsOfBytes (ws.flatMap bytesOfWord) = ws ∧
    ∀ (a j : Nat) (h : a < ws.length), j < 4 →
      (ws.flatMap bytesOfWord)[4 * a + j]? = some (ws[a].extractLsb' (8 * j) 8)

/-- R91: `SETDIM w, h` is `SETW w` then `SETH h`; `PACKPAGES n` is `SETPAGE p; PACKPAGE` for `p` = 0 to
`n - 1` in that order, nothing when `n = 0`. -/
def Obligations.PseudoInstructionsExpand : Prop :=
  (∀ w h : Nat, (Source.expand (.setdim w h)) = [.setw (BitVec.ofNat 16 w), .seth (BitVec.ofNat 16 h)]) ∧
  (Source.expand (.packpages 0)) = [] ∧
  ∀ n : Nat, (Source.expand (.packpages (n + 1))) =
    (Source.expand (.packpages n)) ++ [.setpage (BitVec.ofNat 16 n), .packpage]

/-- R90, R91: whatever text the assembler accepts, every word it makes is a command, never an illegal word. -/
def Obligations.AssembledWordsAreCommands : Prop :=
  ∀ (lines : List (List Char)) (ws : List Word), assemble lines = .ok ws →
    ∀ w ∈ ws, ∃ i, decode w = .command i ∧ encode i = w

/-! ### Configuration and control commands -/

/-- 40_config R102: SETTHR writes `imm[7:0]` to THR when `imm <= 255`, and raises CONFIG otherwise with THR and
PC unchanged. -/
def Obligations.SetthrWritesOrRaisesConfig : Prop :=
  ∀ imm : Half, decode (0x01000000#32 ||| imm.setWidth 32) = .command (.setthr imm) ∧
    ∀ s : State,
      (imm.toNat ≤ 255 →
        exec (.setthr imm) s = .next { s with thr := imm.extractLsb' 0 8, pc := s.pc + 1#32 }) ∧
      (255 < imm.toNat → exec (.setthr imm) s = .next (s.takeFault .config))

/-- R101, R103 to R106: each SET command writes all 16 bits of its immediate to its register and advances PC,
NOP only advances PC; nothing else changes. -/
def Obligations.ConfigurationCommandsComplete : Prop :=
  (∀ imm : Half, decode (0x02000000#32 ||| imm.setWidth 32) = .command (.setw imm) ∧
    ∀ s : State, exec (.setw imm) s = .next { s with width := imm, pc := s.pc + 1#32 }) ∧
  (∀ imm : Half, decode (0x03000000#32 ||| imm.setWidth 32) = .command (.seth imm) ∧
    ∀ s : State, exec (.seth imm) s = .next { s with height := imm, pc := s.pc + 1#32 }) ∧
  (∀ imm : Half, decode (0x04000000#32 ||| imm.setWidth 32) = .command (.setpage imm) ∧
    ∀ s : State, exec (.setpage imm) s = .next { s with page := imm, pc := s.pc + 1#32 }) ∧
  (∀ imm : Half, decode (0x05000000#32 ||| imm.setWidth 32) = .command (.setcol imm) ∧
    ∀ s : State, exec (.setcol imm) s = .next { s with col := imm, pc := s.pc + 1#32 }) ∧
  decode 0x06000000#32 = .command .nop ∧
    ∀ s : State, exec .nop s = .next { s with pc := s.pc + 1#32 }

/-- 42_control R151: END sets `STATUS.HALT` and nothing else, PC included, and the block takes no step after
it; only reset starts it again. -/
def Obligations.EndHaltsTheBlock : Prop :=
  decode 0x7F000000#32 = .command .endRun ∧
  ∀ s : State, ∃ t : State, exec .endRun s = .next t ∧ t = { s with status := s.status ||| 0x01#8 } ∧
    t.halt = true ∧ t.fault = s.fault ∧ t.cause = s.cause ∧ step t = .fault .stopped ∧
    t.applyReset.stopped = false

/-! ### Pack commands -/

/-- 41_pack R134: PACKCOL's tests in their order, and the one byte it writes, which is `packbyte`. A fault
changes STATUS alone and touches no memory. -/
def Obligations.PackcolDoesItsRule : Prop :=
  decode 0x10000000#32 = .command .packcol ∧
  ∀ s : State,
    (s.imgLen.toNat ≠ s.width.toNat * s.height.toNat →
      exec .packcol s = .next (s.takeFault .image) ∧ commandEvents .packcol s = []) ∧
    (s.imgLen.toNat = s.width.toNat * s.height.toNat →
      pageCount s.height.toNat ≤ s.page.toNat ∨ s.width.toNat ≤ s.col.toNat →
      exec .packcol s = .next (s.takeFault .index) ∧ commandEvents .packcol s = []) ∧
    (s.imgLen.toNat = s.width.toNat * s.height.toNat →
      s.page.toNat < pageCount s.height.toNat → s.col.toNat < s.width.toNat →
      s.outLen.toNat ≤ s.page.toNat * s.width.toNat + s.col.toNat →
      exec .packcol s = .next (s.takeFault .outbound) ∧ commandEvents .packcol s = []) ∧
    (s.imgLen.toNat = s.width.toNat * s.height.toNat →
      s.page.toNat < pageCount s.height.toNat → s.col.toNat < s.width.toNat →
      s.page.toNat * s.width.toNat + s.col.toNat < s.outLen.toNat →
      exec .packcol s = .next
        { s with
          out := s.out.write (s.page.toNat * s.width.toNat + s.col.toNat)
            (packbyte (fun row c => s.img.read (row * s.width.toNat + c)) s.height.toNat s.thr s.page.toNat s.col.toNat)
          pc := s.pc + 1#32 })

/-- R135: PACKPAGE's tests in their order; when none fails it completes, byte `c` of the page is `packbyte` for
every `c < WIDTH`, every other byte of OUT and every register but PC is unchanged. -/
def Obligations.PackpageDoesItsRule : Prop :=
  decode 0x11000000#32 = .command .packpage ∧
  ∀ s : State,
    (s.imgLen.toNat ≠ s.width.toNat * s.height.toNat →
      exec .packpage s = .next (s.takeFault .image) ∧ commandEvents .packpage s = []) ∧
    (s.imgLen.toNat = s.width.toNat * s.height.toNat → pageCount s.height.toNat ≤ s.page.toNat →
      exec .packpage s = .next (s.takeFault .index) ∧ commandEvents .packpage s = []) ∧
    (s.imgLen.toNat = s.width.toNat * s.height.toNat → s.page.toNat < pageCount s.height.toNat →
      s.outLen.toNat < (s.page.toNat + 1) * s.width.toNat →
      exec .packpage s = .next (s.takeFault .outbound) ∧ commandEvents .packpage s = []) ∧
    (s.imgLen.toNat = s.width.toNat * s.height.toNat → s.page.toNat < pageCount s.height.toNat →
      (s.page.toNat + 1) * s.width.toNat ≤ s.outLen.toNat →
      ∃ t : State, exec .packpage s = .next t ∧ t = { s with out := t.out, pc := s.pc + 1#32 } ∧
        (∀ c < s.width.toNat, t.out.read (s.page.toNat * s.width.toNat + c) =
          packbyte (fun row c => s.img.read (row * s.width.toNat + c)) s.height.toNat s.thr s.page.toNat c) ∧
        ∀ a, a < s.page.toNat * s.width.toNat ∨ s.page.toNat * s.width.toNat + s.width.toNat ≤ a →
          t.out.read a = s.out.read a)

/-- R136: PACKIMG's tests in their order; when none fails (the premises `ImageFits` and `OutFits` of
70_reset_and_hazards R200 for the dimensions it reads) it completes,
`OUT[0 .. pageCount * WIDTH - 1] = packimage(img, WIDTH, HEIGHT, THR)`, every other byte of OUT and every
register but PC is unchanged, and every sample of the image is read exactly once. -/
def Obligations.PackimgDoesItsRule : Prop :=
  decode 0x12000000#32 = .command .packimg ∧
  ∀ s : State,
    (s.imgLen.toNat ≠ s.width.toNat * s.height.toNat →
      exec .packimg s = .next (s.takeFault .image) ∧ commandEvents .packimg s = []) ∧
    (s.imgLen.toNat = s.width.toNat * s.height.toNat →
      s.outLen.toNat < pageCount s.height.toNat * s.width.toNat →
      exec .packimg s = .next (s.takeFault .outbound) ∧ commandEvents .packimg s = []) ∧
    (s.imageFits s.width.toNat s.height.toNat → s.outFits s.width.toNat s.height.toNat →
      ∃ t : State, exec .packimg s = .next t ∧ t = { s with out := t.out, pc := s.pc + 1#32 } ∧
        t.out.toList (pageCount s.height.toNat * s.width.toNat) =
          packimage (fun row c => s.img.read (row * s.width.toNat + c)) s.width.toNat s.height.toNat s.thr ∧
        (∀ a, pageCount s.height.toNat * s.width.toNat ≤ a → t.out.read a = s.out.read a) ∧
        ∀ a, s.imageReads.count a = if a < s.width.toNat * s.height.toNat then 1 else 0)

/-- R139: every byte a PACK command writes to `OUT[p * WIDTH + c]` is `packbyte` of the register values at that
moment, and the writes depend on nothing else: not on PC, not on the contents of OUT, not on COL (PACKPAGE,
PACKIMG), not on PAGE (PACKIMG). -/
def Obligations.PackWritesArePure : Prop :=
  (∀ (i : Instr) (s : State), ∀ x ∈ outWrites (commandEvents i s), ∃ p c : Nat,
    p < pageCount s.height.toNat ∧ c < s.width.toNat ∧ x.1.toNat = p * s.width.toNat + c ∧
    x.2 = packbyte (fun row c => s.img.read (row * s.width.toNat + c)) s.height.toNat s.thr p c) ∧
  ∀ s s' : State, s'.thr = s.thr → s'.width = s.width → s'.height = s.height → s'.imgLen = s.imgLen →
    s'.outLen = s.outLen → (∀ a < s.imgLen.toNat, s'.img.read a = s.img.read a) →
    outWrites (commandEvents .packimg s') = outWrites (commandEvents .packimg s) ∧
    (s'.page = s.page →
      outWrites (commandEvents .packpage s') = outWrites (commandEvents .packpage s) ∧
      (s'.col = s.col → outWrites (commandEvents .packcol s') = outWrites (commandEvents .packcol s)))

/-- R138: from a state in which PACKPAGE does not fault, SETCOL c; PACKCOL for the columns of the page, in any
order, does not fault and leaves the same OUT; it differs in PC and in COL. -/
def Obligations.PackpageIsItsColumns : Prop :=
  ∀ (s : State) (columns : List Nat), s.stopped = false → columns.Perm (List.range s.width.toNat) →
    s.imgLen.toNat = s.width.toNat * s.height.toNat → s.page.toNat < pageCount s.height.toNat →
    (s.page.toNat + 1) * s.width.toNat ≤ s.outLen.toNat →
    ∃ t u : State, exec .packpage s = .next t ∧
      runCommands (columns.flatMap fun c => [.setcol (BitVec.ofNat 16 c), .packcol]) s = .next u ∧
      (∀ a, u.out.read a = t.out.read a) ∧
      u = { t with
            out := u.out
            pc := s.pc + BitVec.ofNat 32 (2 * s.width.toNat)
            col := (columns.getLast?.map (BitVec.ofNat 16)).getD s.col }

/-- R137: from a state in which PACKIMG does not fault, `PACKPAGES n` with `n = pageCount(HEIGHT)` does not fault
and leaves the same OUT, with PC advanced by `2n` and PAGE left at `n - 1`; when PACKIMG would raise OUTBOUND
the sequence raises it at the first page that does not fit, after the earlier pages have been written. -/
def Obligations.PackimgIsItsPages : Prop :=
  ∀ s : State, s.stopped = false → s.imgLen.toNat = s.width.toNat * s.height.toNat →
    (pageCount s.height.toNat * s.width.toNat ≤ s.outLen.toNat →
      ∃ t u : State, exec .packimg s = .next t ∧
        runCommands (packPages (pageCount s.height.toNat)) s = .next u ∧ u.out = t.out ∧
        u = { t with
              pc := s.pc + BitVec.ofNat 32 (2 * pageCount s.height.toNat)
              page := if pageCount s.height.toNat = 0 then s.page
                else BitVec.ofNat 16 (pageCount s.height.toNat - 1) }) ∧
    (s.outLen.toNat < pageCount s.height.toNat * s.width.toNat →
      ∃ (u : State) (q : Nat), runCommands (packPages (pageCount s.height.toNat)) s = .next u ∧
        q < pageCount s.height.toNat ∧ q * s.width.toNat ≤ s.outLen.toNat ∧
        s.outLen.toNat < (q + 1) * s.width.toNat ∧
        u.fault = true ∧ u.cause = 6#3 ∧ u.page.toNat = q ∧
        ∀ a, u.out.read a =
          if a < q * s.width.toNat then
            packbyte (fun row c => s.img.read (row * s.width.toNat + c)) s.height.toNat s.thr
              (a / s.width.toNat) (a % s.width.toNat)
          else s.out.read a)

/-- R140: an empty image is not an error. With `WIDTH = 0` or `HEIGHT = 0` the packed sequence is empty (no pages, or
pages of zero bytes each), and
given `IMG_LEN = 0` PACKIMG completes, writes nothing and raises nothing, whatever `OUT_LEN` is. -/
def Obligations.EmptyImagePacksToNothing : Prop :=
  (∀ (img : Image) (W H : Nat) (t : Byte), W = 0 ∨ H = 0 → packimage img W H t = []) ∧
  pageCount 0 = 0 ∧
  (∀ (img : Image) (H : Nat) (t : Byte) (p : Nat), packpage img 0 H t p = []) ∧
  ∀ s : State, s.width = 0#16 ∨ s.height = 0#16 → s.imgLen = 0#32 →
    exec .packimg s = .next { s with pc := s.pc + 1#32 } ∧ outWrites (commandEvents .packimg s) = []

/-- 70_reset_and_hazards R191: at the reset values a PACKIMG completes and writes nothing if `IMG_LEN = 0`, and
raises IMAGE with a non-empty IMG. -/
def Obligations.ResetStatePacksNothing : Prop :=
  ∀ s : State, s.AtReset →
    (s.imgLen = 0#32 → exec .packimg s = .next { s with pc := 1#32 }) ∧
    (s.imgLen ≠ 0#32 → exec .packimg s = .next (s.takeFault .image))

/-! ### Layer 0: the functions, the cell and the array -/

/-- R120, R121, R122, R124: the packed byte is the sum of its bits, and bit `i` is 1 exactly when row `8p + i`
exists and its sample is at or above the threshold, unsigned; a row beyond the image gives 0 whatever the
threshold. -/
def Obligations.BitOfPackedByteIsItsRow : Prop :=
  ∀ (img : Image) (H : Nat) (t : Byte) (p c : Nat),
    (packbyte img H t p c).toNat = packSum img H t p c ∧
    ∀ i < 8, ((packbyte img H t p c).getLsbD i = true ↔ 8 * p + i < H ∧ t.toNat ≤ (img (8 * p + i) c).toNat)

/-- R123: `ceil(H / 8)` for every height; for a 16-bit HEIGHT it equals `H[15:3] + (H[2:0] != 0)` and is at
most 8192. -/
def Obligations.PageCountIsTheCeiling : Prop :=
  (∀ H : Nat, 8 * pageCount H < H + 8 ∧ H ≤ 8 * pageCount H) ∧
  pageCount 0 = 0 ∧ (∀ H, 1 ≤ H → H ≤ 8 → pageCount H = 1) ∧ pageCount 9 = 2 ∧ pageCount 65535 = 8192 ∧
  ∀ h : Half, pageCount h.toNat ≤ 8192 ∧
    pageCount h.toNat = (h.extractLsb' 3 13).toNat + (if h.extractLsb' 0 3 = 0#3 then 0 else 1)

/-- R125: the mask form. For a page that exists `nrows` is 1 to 8, and 8 for every page but possibly the last;
bit `i` of `vmask` is `rowvalid`; `packbyte = cmp & vmask` whatever `cmp` holds beyond the rows. -/
def Obligations.PackedByteIsMaskedCompare : Prop :=
  ∀ (img : Image) (H : Nat) (t : Byte) (p c : Nat), p < pageCount H →
    1 ≤ nrows p H ∧ nrows p H ≤ 8 ∧ (p + 1 < pageCount H → nrows p H = 8) ∧
    (p + 1 = pageCount H → (nrows p H < 8 ↔ H % 8 ≠ 0) ∧ (H % 8 ≠ 0 → nrows p H = H % 8)) ∧
    (vmask p H).toNat = 2 ^ nrows p H - 1 ∧
    (∀ i < 8, (rowValid p i H = true ↔ i < nrows p H) ∧ (vmask p H).getLsbD i = rowValid p i H) ∧
    (∀ cmp : Byte, (∀ i < nrows p H, cmp.getLsbD i = on (img (8 * p + i) c) t) →
      packbyte img H t p c = cmp &&& vmask p H) ∧
    (packbyte img H t p c).toNat < 2 ^ nrows p H

/-- R127, R128: a page is `W` bytes in column order; element `k` of the image is
`packbyte(img, H, t, k div W, k mod W)`, for `k < pageCount(H) * W`. -/
def Obligations.PackimageElements : Prop :=
  ∀ (img : Image) (W H : Nat) (t : Byte),
    (∀ p, (packpage img W H t p).length = W ∧
      ∀ c < W, (packpage img W H t p)[c]? = some (packbyte img H t p c)) ∧
    (packimage img W H t).length = pageCount H * W ∧
    ∀ k < pageCount H * W, (packimage img W H t)[k]? = some (packbyte img H t (k / W) (k % W))

/-- R129 (b) to (e): running PACKIMG twice in a row leaves the same OUT as once; a byte depends only on the
threshold and the samples of its own rows; raising the threshold only clears bits; bits beyond the rows of
a page are 0. -/
def Obligations.LawsOfTheFunctions : Prop :=
  (∀ s t : State, exec .packimg s = .next t → t.fault = false →
    ∃ u : State, exec .packimg t = .next u ∧ ∀ a, u.out.read a = t.out.read a) ∧
  (∀ (img img' : Image) (H : Nat) (t : Byte) (p c : Nat),
    (∀ i < nrows p H, img' (8 * p + i) c = img (8 * p + i) c) → packbyte img' H t p c = packbyte img H t p c) ∧
  (∀ (img : Image) (H : Nat) (t t' : Byte) (p c i : Nat), t.toNat ≤ t'.toNat →
    (packbyte img H t' p c).getLsbD i = true → (packbyte img H t p c).getLsbD i = true) ∧
  ∀ (img : Image) (H : Nat) (t : Byte) (p c i : Nat), nrows p H ≤ i → (packbyte img H t p c).getLsbD i = false

/-- R141: threshold 0 gives `vmask`; threshold 255 gives a bit only where the sample is 255; threshold 128 where
it is 128 or more; and no threshold turns every pixel off for every image. -/
def Obligations.ThresholdExtremes : Prop :=
  (∀ (img : Image) (H p c : Nat),
    packbyte img H 0#8 p c = vmask p H ∧
    ∀ i < nrows p H,
      ((packbyte img H 255#8 p c).getLsbD i = true ↔ img (8 * p + i) c = 255#8) ∧
      ((packbyte img H 128#8 p c).getLsbD i = true ↔ 128 ≤ (img (8 * p + i) c).toNat)) ∧
  ∀ (t : Byte) (H p c : Nat), p < pageCount H → ∃ img : Image, packbyte img H t p c ≠ 0#8

/-- R126: bit `i` of a cell's output is `(Si >= T) & V[i]`; with `V[i] = rowvalid(p, i, H)` the output is
`packbyte`, whatever stands on the wires of rows that do not exist. -/
def Obligations.CellComputesPackbyte : Prop :=
  (∀ (x : CellInput) (i : Fin 8),
    (cellOutput x).getLsbD i.val = (decide (x.threshold.toNat ≤ (x.samples i).toNat) && x.valid.getLsbD i.val)) ∧
  ∀ (img undriven : Image) (H : Nat) (t : Byte) (p c : Nat),
    (∀ i : Fin 8, (arrayInput img undriven H t p c).valid.getLsbD i.val = rowValid p i.val H) ∧
    cellOutput (arrayInput img undriven H t p c) = packbyte img H t p c

/-- R131: the array of one cell per column gives the page, and so does any number `n >= 1` of physical cells used
several times per page: "the result is the same and no rule can tell". How the columns fall into passes of `n`,
from the left, is the model's choice (log entry 13, DESIGN CHOICE): R8 and R131 give no division, and the clause on
`pageInPasses` is about that one. -/
def Obligations.AnyNumberOfCellsGivesThePage : Prop :=
  ∀ (n : Nat) (img undriven : Image) (W H : Nat) (t : Byte) (p : Nat), 1 ≤ n →
    arrayPage img undriven W H t p = packpage img W H t p ∧
    pageInPasses n img undriven W H t p = packpage img W H t p

/-! ### Memory: addresses, admission, order -/

/-- R132: for a (page, column) pair exactly the samples of the rows that exist are read, `nrows` of them, each at
`(8p + i) * WIDTH + c`, below `WIDTH * HEIGHT`; so once the IMAGE test has passed every one is inside IMG. -/
def Obligations.CellReadsAreTheRowsThatExist : Prop :=
  ∀ (s : State) (p c : Nat), p < pageCount s.height.toNat → c < s.width.toNat →
    (s.cellReads p c).length = nrows p s.height.toNat ∧
    (∀ a, a ∈ s.cellReads p c ↔ ∃ i < 8, 8 * p + i < s.height.toNat ∧ a = (8 * p + i) * s.width.toNat + c) ∧
    (∀ a ∈ s.cellReads p c, a < s.width.toNat * s.height.toNat) ∧
    (s.imageMisfits = false → ∀ a ∈ s.cellReads p c, a < s.imgLen.toNat)

/-- R130: nothing wraps. Every product and address of the PACK commands stays below `2^32`, with the bounds the
rule gives. -/
def Obligations.NothingWraps : Prop :=
  ∀ s : State,
    s.width.toNat * s.height.toNat ≤ 4294836225 ∧ pageCount s.height.toNat ≤ 8192 ∧
    pageCount s.height.toNat * s.width.toNat ≤ 536862720 ∧
    (∀ row c, row < s.height.toNat → c < s.width.toNat → s.imgAddress row c ≤ 4294836224) ∧
    ∀ p < pageCount s.height.toNat,
      (p + 1) * s.width.toNat ≤ 536862720 ∧ (∀ i < 8, 8 * p + i ≤ 65535) ∧
      ∀ c < s.width.toNat, s.outAddress p c ≤ 536862719

/-- R54: no access outside a space's length is ever issued, and a command that raises a fault touches no
memory. -/
def Obligations.AccessesAreAdmitted : Prop :=
  (∀ s : State, ∀ e ∈ stepEvents s, match e with
    | .progFetch a _ => a.toNat < s.progLen.toNat
    | .imgRead a _ => a.toNat < s.imgLen.toNat
    | .outWrite a _ => a.toNat < s.outLen.toNat) ∧
  ∀ (i : Instr) (s t : State), s.fault = false → exec i s = .next t → t.fault = true →
    commandEvents i s = [] ∧ t.out = s.out

/-- 10_state R35, 20_memory R53: OUT after a step is OUT before it with the packed-byte writes of the step's
transactions made in their order, and the samples of its transactions are what IMG holds. -/
def Obligations.StepWritesWhatItsPortsShow : Prop :=
  ∀ s t : State, step s = .next t →
    t.out = s.out.writeAll ((outWrites (stepEvents s)).map fun x => (x.1.toNat, x.2)) ∧
    ∀ e ∈ stepEvents s, match e with
      | .progFetch a w => a = s.pc ∧ w = s.prog.read a.toNat
      | .imgRead a b => b = s.img.read a.toNat
      | .outWrite a b => t.out.read a.toNat = b

/-- R64, R153: inside one PACK command the writes may be made in any order with the same final OUT. -/
def Obligations.WriteOrderIsUnobservable : Prop :=
  ∀ (s : State) (ws : List Host.Cell) (a : Nat),
    (ws.Perm s.imageWrites → (s.out.writeAll ws).read a = (s.out.writeAll s.imageWrites).read a) ∧
    ∀ p, ws.Perm (s.pageWrites p) → (s.out.writeAll ws).read a = (s.out.writeAll (s.pageWrites p)).read a

/-- R63: PACKCOL reads at most 8 bytes and writes 1, PACKPAGE reads at most `8 * WIDTH` and writes `WIDTH`,
PACKIMG reads exactly `WIDTH * HEIGHT` and writes `pageCount * WIDTH`. -/
def Obligations.AccessCounts : Prop :=
  ∀ (s : State) (p c : Nat),
    (s.cellReads p c).length ≤ 8 ∧ (s.pageReads p).length ≤ 8 * s.width.toNat ∧
    s.imageReads.length = s.width.toNat * s.height.toNat ∧
    (outWrites (s.cellEvents p c)).length = 1 ∧ (outWrites (s.pageEvents p)).length = s.width.toNat ∧
    (outWrites s.imageEvents).length = pageCount s.height.toNat * s.width.toNat

/-! ### Faults -/

/-- 60_exceptions R171: fault entry sets FAULT and CAUSE and changes nothing else, HALT and the reserved bits
included; the block is stopped. The codes are R161's. -/
def Obligations.FaultEntryChangesStatusOnly : Prop :=
  ∀ (k : Cause) (s : State),
    s.takeFault k = { s with status := (s.takeFault k).status } ∧
    (s.takeFault k).fault = true ∧
    (s.takeFault k).cause = (match k with
      | .fetch => 1#3 | .illegal => 2#3 | .config => 3#3 | .image => 4#3 | .index => 5#3 | .outbound => 6#3) ∧
    (s.takeFault k).halt = s.halt ∧ (s.takeFault k).reserved = s.reserved ∧
    step (s.takeFault k) = .fault .stopped

/-- R170: the tests of a step are made in this order and the first that fails decides: FETCH; ILLEGAL; CONFIG for
SETTHR; IMAGE, INDEX, OUTBOUND for PACKCOL and PACKPAGE; IMAGE, OUTBOUND for PACKIMG. -/
def Obligations.FirstFailingTestDecides : Prop :=
  ∀ s : State, s.stopped = false →
    (s.progLen.toNat ≤ s.pc.toNat → step s = .next (s.takeFault .fetch)) ∧
    (s.pc.toNat < s.progLen.toNat →
      ((decode (s.prog.read s.pc.toNat)).isIllegal = true → step s = .next (s.takeFault .illegal)) ∧
      (∀ imm : Half, decode (s.prog.read s.pc.toNat) = .command (.setthr imm) → 255 < imm.toNat →
        step s = .next (s.takeFault .config)) ∧
      (∀ i, decode (s.prog.read s.pc.toNat) = .command i → i = .packcol ∨ i = .packpage ∨ i = .packimg →
        s.imgLen.toNat ≠ s.width.toNat * s.height.toNat → step s = .next (s.takeFault .image)) ∧
      (∀ i, decode (s.prog.read s.pc.toNat) = .command i →
        s.imgLen.toNat = s.width.toNat * s.height.toNat →
        (i = .packcol ∧ (pageCount s.height.toNat ≤ s.page.toNat ∨ s.width.toNat ≤ s.col.toNat)) ∨
          (i = .packpage ∧ pageCount s.height.toNat ≤ s.page.toNat) →
        step s = .next (s.takeFault .index)) ∧
      ∀ i, decode (s.prog.read s.pc.toNat) = .command i →
        s.imgLen.toNat = s.width.toNat * s.height.toNat →
        (i = .packcol ∧ s.page.toNat < pageCount s.height.toNat ∧ s.col.toNat < s.width.toNat ∧
            s.outLen.toNat ≤ s.page.toNat * s.width.toNat + s.col.toNat) ∨
          (i = .packpage ∧ s.page.toNat < pageCount s.height.toNat ∧
            s.outLen.toNat < (s.page.toNat + 1) * s.width.toNat) ∨
          (i = .packimg ∧ s.outLen.toNat < pageCount s.height.toNat * s.width.toNat) →
        step s = .next (s.takeFault .outbound))

/-- R172: faults are precise. A step that ends in a fault has done nothing but set STATUS, and no later command
starts. -/
def Obligations.FaultsArePrecise : Prop :=
  ∀ s t : State, step s = .next t → t.fault = true →
    t = { s with status := t.status } ∧ step t = .fault .stopped

/-- 42_control R150, R155, 60_exceptions R173: a block takes no step exactly when it is stopped, and otherwise its
step always has a next state: no command is refused. -/
def Obligations.StepHasNextUnlessStopped : Prop :=
  ∀ s : State, (step s = .fault .stopped ↔ s.halt = true ∨ s.fault = true) ∧
    (s.halt = false → s.fault = false → ∃ t : State, step s = .next t)

/-! ### The machine as a whole -/

/-- 42_control R150: when the word at PC decodes to a command, a step of a running block is that command, with
nothing around it; `exec` itself moves PC. -/
def Obligations.StepRunsTheDecodedCommand : Prop :=
  ∀ (s : State) (i : Instr), s.halt = false → s.fault = false → s.pc.toNat < s.progLen.toNat →
    decode (s.prog.read s.pc.toNat) = .command i → step s = exec i s

/-- The placed word is the next to run, in every state: the model's convention for a command loaded from outside
(assumption 4). -/
def Obligations.PlacedWordRunsNext : Prop :=
  ∀ (s : State) (w : Nat) (i : Instr), decodeTableWord 32 w = some i →
    step (s.withFetchWord 32 w) = exec i (s.withFetchWord 32 w)

/-- 10_state R23: a step that completes without a fault and is not END sets `PC <- PC + 1` without wrapping; END
and every fault stop the block and leave PC. -/
def Obligations.PcCountsCompletedCommands : Prop :=
  ∀ s t : State, step s = .next t →
    (t.stopped = true ∧ t.pc = s.pc) ∨
    (t.stopped = false ∧ t.pc.toNat = s.pc.toNat + 1 ∧ t.pc.toNat ≤ s.progLen.toNat)

/-- R150: every run is finite, from any state: at most one step for each command word from PC on, and one more. -/
def Obligations.EveryRunEnds : Prop :=
  ∀ s : State, ∃ k ≤ s.progLen.toNat - s.pc.toNat + 1, ∃ t : State,
    Sys2Proof.core.run k s = .next t ∧ t.stopped = true

/-- R155: a run that ends well ended at an END, which is where PC stands; one that ends badly has PC on the
faulting command, or equal to PROG_LEN for a FETCH fault. -/
def Obligations.EndOfRunIsAtPc : Prop :=
  ∀ s t : State, s.Inv → step s = .next t →
    (t.endedWell → t.pc = s.pc ∧ decode (t.prog.read t.pc.toNat) = .command .endRun) ∧
    (t.endedBadly → t.pc = s.pc ∧ (t.cause = 1#3 → t.pc = t.progLen) ∧
      (t.cause ≠ 1#3 → t.pc.toNat < t.progLen.toNat)) ∧
    (¬ t.endedWell → ¬ t.endedBadly → t.stopped = false)

/-- R28: HALT and FAULT are never both 1, CAUSE is 0 exactly when FAULT is 0 and never 7, so STATUS takes only the
eight values; it does so after reset and every step keeps it. -/
def Obligations.StatusStaysLegal : Prop :=
  (∀ s : State, s.statusLegal ↔
    ¬ (s.halt = true ∧ s.fault = true) ∧ (s.cause = 0#3 ↔ s.fault = false) ∧ s.cause ≠ 7#3 ∧ s.reserved = 0#3) ∧
  (∀ s : State, s.AtReset → s.statusLegal) ∧
  ∀ s t : State, s.statusLegal → step s = .next t → t.statusLegal

/-- The invariant of the machine (R23, R28, R50): legal STATUS, `PC <= PROG_LEN`, and the three memories in
canonical form with nothing at or beyond their lengths. Every step keeps it. -/
def Obligations.StepKeepsInv : Prop :=
  ∀ s t : State, s.Inv → step s = .next t → t.Inv

/-- The invariant holds at the state after reset and after every launch the host can make (R193). -/
def Obligations.ResetAndLaunchMeetInv : Prop :=
  State.reset.Inv ∧ ∀ (s : State) (l : Launch), l.fits = true → (s.launch l).Inv

/-- R37, R50: each register, PC included, has the writers among the commands that the table gives it and no other,
and no command writes PROG, IMG or a length. -/
def Obligations.EachRegisterHasItsWriters : Prop :=
  ∀ (i : Instr) (s t : State), exec i s = .next t →
    SameLaunch s t ∧
    ((t.pc = s.pc + 1#32 ∧ i ≠ .endRun ∧ t.fault = s.fault ∧ t.cause = s.cause) ∨
      (t.pc = s.pc ∧ (i = .endRun ∨ ∃ k, t = s.takeFault k))) ∧
    (t.page ≠ s.page → ∃ imm, i = .setpage imm) ∧ (t.col ≠ s.col → ∃ imm, i = .setcol imm) ∧
    (t.thr ≠ s.thr → ∃ imm, i = .setthr imm) ∧ (t.width ≠ s.width → ∃ imm, i = .setw imm) ∧
    (t.height ≠ s.height → ∃ imm, i = .seth imm) ∧
    (t.halt ≠ s.halt → i = .endRun) ∧
    (t.fault ≠ s.fault ∨ t.cause ≠ s.cause → ∃ k, t = s.takeFault k) ∧
    (t.out ≠ s.out → i = .packcol ∨ i = .packpage ∨ i = .packimg)

/-- The frame of the commands that pack nothing: every register but PC and the one the command is for is unchanged,
and every byte of OUT reads as before (R37, R100). END and a SETTHR that raises CONFIG leave PC (R151, R102), every
other one adds 1. -/
def Obligations.FrameOfNonPackingCommands : Prop :=
  ∀ (i : Instr) (s t : State), i ≠ .packcol → i ≠ .packpage → i ≠ .packimg → exec i s = .next t →
    SameLaunch s t ∧ (∀ a, t.out.read a = s.out.read a) ∧
    t.pc = (match i with
      | .setthr imm => if imm.toNat ≤ 255 then s.pc + 1#32 else s.pc
      | .endRun => s.pc
      | _ => s.pc + 1#32) ∧
    t.thr = (match i with | .setthr imm => if imm.toNat ≤ 255 then imm.extractLsb' 0 8 else s.thr | _ => s.thr) ∧
    t.width = (match i with | .setw imm => imm | _ => s.width) ∧
    t.height = (match i with | .seth imm => imm | _ => s.height) ∧
    t.page = (match i with | .setpage imm => imm | _ => s.page) ∧
    t.col = (match i with | .setcol imm => imm | _ => s.col) ∧
    t.status = (match i with
      | .setthr imm => if imm.toNat ≤ 255 then s.status else statusFaulted .config s.status
      | .endRun => statusHalted s.status
      | _ => s.status)

/-- The frame of PACKCOL, PACKPAGE and PACKIMG: PAGE, COL, THR, WIDTH, HEIGHT and the launch values are unchanged;
STATUS is unchanged unless a fault is taken; and every byte of OUT reads as before but the byte at
`PAGE * WIDTH + COL`, the WIDTH bytes from `PAGE * WIDTH`, and the `pageCount * WIDTH` bytes from 0. -/
def Obligations.FrameOfPackCommands : Prop :=
  ∀ (i : Instr) (s t : State), i = .packcol ∨ i = .packpage ∨ i = .packimg → exec i s = .next t →
    SameLaunch s t ∧ t.page = s.page ∧ t.col = s.col ∧ t.thr = s.thr ∧ t.width = s.width ∧ t.height = s.height ∧
    ((t.status = s.status ∧ t.pc = s.pc + 1#32) ∨
      ((∃ k : Cause, t.status = statusFaulted k s.status) ∧ t.pc = s.pc ∧ ∀ a, t.out.read a = s.out.read a)) ∧
    (i = .packcol → ∀ a, a ≠ s.outAddress s.page.toNat s.col.toNat → t.out.read a = s.out.read a) ∧
    (i = .packpage → ∀ a, a < s.outAddress s.page.toNat 0 ∨ s.outAddress s.page.toNat 0 + s.width.toNat ≤ a →
      t.out.read a = s.out.read a) ∧
    (i = .packimg → ∀ a, s.outAddress (pageCount s.height.toNat) 0 ≤ a → t.out.read a = s.out.read a)

/-! ### Reset, launch and what the host gets -/

/-- 10_state R34, 70_reset_and_hazards R190, R192: reset sets the seven registers to the values of the table and
does not touch PROG, IMG, OUT or their lengths; the first command executed after it is `PROG[0]`. -/
def Obligations.ResetSetsTheRegisters : Prop :=
  State.reset.AtReset ∧
  ∀ s : State, s.applyReset.AtReset ∧ SameLaunch s s.applyReset ∧ s.applyReset.out = s.out ∧
    stepWithReset true s = .next s.applyReset ∧ s.applyReset.stopped = false ∧
    ∀ i, 0 < s.progLen.toNat → decode (s.prog.read 0) = .command i → step s.applyReset = exec i s.applyReset

/-- R193: after a launch the registers are at their reset values and the three spaces hold what the host bound,
with its lengths. -/
def Obligations.LaunchBindsTheMemories : Prop :=
  ∀ (s : State) (l : Launch), l.fits = true →
    (s.launch l).AtReset ∧ (s.launch l).progLen.toNat = l.prog.length ∧ (s.launch l).imgLen.toNat = l.img.length ∧
    (s.launch l).outLen.toNat = l.out.length ∧ (s.launch l).prog.toList l.prog.length = l.prog ∧
    (s.launch l).img.toList l.img.length = l.img ∧ (s.launch l).out.toList l.out.length = l.out

/-- R155, 60_exceptions R174, R198: with a legal STATUS the host has results, and may read OUT, exactly from a run
that ended well; the results are the addresses the run's packed-byte writes went to, rising and each once, with the
bytes OUT holds there; from a faulted run it has only the cause and PC. -/
def Obligations.HostTakesOutOnlyFromGoodRuns : Prop :=
  ∀ (events : List BusEvent) (s : State), s.statusLegal →
    ((∃ results, hostResult events s = .good results) ↔ s.status = 0x01#8) ∧
    (∀ results, hostResult events s = .good results →
      (results.map Prod.fst).Pairwise (· < ·) ∧
      ∀ (a : Nat) (b : Byte), (a, b) ∈ results ↔ (∃ x ∈ outWrites events, x.1.toNat = a) ∧ b = s.out.read a) ∧
    (s.status = 0x01#8 → s.hostOut = some (s.out.toList s.outLen.toNat)) ∧
    (s.status ≠ 0x01#8 → s.hostOut = none) ∧
    (s.fault = true ↔ hostResult events s = .discard s.cause s.pc) ∧
    (s.stopped = false ↔ hostResult events s = .running)

/-- 20_memory R53, R64 (b) and (c), R198: in any number of steps of any run, the packed-byte writes go to addresses
OUT has; a byte of OUT that no command has written keeps the value it had before the run; and a byte that was
written holds what the last write of its address put there. `runState` is the run of the machine. -/
def Obligations.OutHoldsLaunchValuesAndLastWrites : Prop :=
  ∀ (n : Nat) (s : State),
    (∀ t : State, Sys2Proof.core.run n s = .next t → runState n s = t) ∧
    (∀ x ∈ outWrites (runEvents n s), x.1.toNat < s.outLen.toNat) ∧
    (∀ a, (∀ x ∈ outWrites (runEvents n s), x.1.toNat ≠ a) → (runState n s).out.read a = s.out.read a) ∧
    ∀ (before after : List (Word × Byte)) (a : Word) (b : Byte),
      outWrites (runEvents n s) = before ++ (a, b) :: after → (∀ x ∈ after, x.1 ≠ a) →
      (runState n s).out.read a.toNat = b

/-- 20_memory R59: the Header Encoder's contract. Four bytes, low byte then high byte of each dimension;
`RangeError` outside 0 to 65535; the dimensions round-trip; for the registers it gives `WIDTH[7:0]`,
`WIDTH[15:8]`, `HEIGHT[7:0]`, `HEIGHT[15:8]`. -/
def Obligations.HeaderRoundTrips : Prop :=
  (∀ w h : Int, 0 ≤ w → w ≤ 65535 → 0 ≤ h → h ≤ 65535 → ∃ b0 b1 b2 b3 : Byte,
    headerEncode w h = some [b0, b1, b2, b3] ∧
    w = (b0.toNat : Int) + 256 * (b1.toNat : Int) ∧ h = (b2.toNat : Int) + 256 * (b3.toNat : Int)) ∧
  (∀ w h : Int, w < 0 ∨ 65535 < w ∨ h < 0 ∨ 65535 < h → headerEncode w h = none) ∧
  ∀ s : State, headerEncode (s.width.toNat : Int) (s.height.toNat : Int) =
    some [s.width.extractLsb' 0 8, s.width.extractLsb' 8 8, s.height.extractLsb' 0 8, s.height.extractLsb' 8 8]

/-- R57, R198, for the dimensions that WIDTH and HEIGHT hold at the end (log entry 19, DEDUCED): where a run ended
well, OUT has room for their image and every packed byte of it was written, the record is the header and then the
packed bytes, `4 + pageCount * WIDTH` bytes in all, the packed byte of page `p`, column `c` at offset
`4 + p * WIDTH + c`. From any other run there is no record (log entry 20, DESIGN CHOICE where the run ended well),
so a record never holds a byte beyond OUT_LEN. -/
def Obligations.OutputRecordLayout : Prop :=
  (∀ (events : List BusEvent) (s : State),
    (s.endedWell → s.outFits s.width.toNat s.height.toNat →
      (∀ a < pageCount s.height.toNat * s.width.toNat, ∃ x ∈ outWrites events, x.1.toNat = a) →
      ∃ r : List Byte, outputRecord events s = some r ∧
        r.length = 4 + pageCount s.height.toNat * s.width.toNat ∧ r.take 4 = s.header ∧
        ∀ p c, p < pageCount s.height.toNat → c < s.width.toNat →
          r[4 + p * s.width.toNat + c]? = some (s.out.read (p * s.width.toNat + c))) ∧
    ((outputRecord events s).isSome = true → s.endedWell ∧
      ∀ a < pageCount s.height.toNat * s.width.toNat, ∃ x ∈ outWrites events, x.1.toNat = a)) ∧
  ∀ (n : Nat) (s : State), (outputRecord (runEvents n s) (runState n s)).isSome = true →
    (runState n s).outFits (runState n s).width.toNat (runState n s).height.toNat
end

