-- ==== Sys2Proof/Laws/Decode.lean ====
section
/-! SUPPORT. The fields of a word in format C, and a word as its four bytes. -/

namespace Sys2Proof

@[simp] theorem opField_formatC (op : Byte) (imm : Half) : opField (formatC op imm) = op := by
  apply BitVec.eq_of_getLsbD_eq
  intro i hi
  simp [opField, formatC, hi, show 24 + i < 32 by omega,
    show 16 ≤ 24 + i by omega, BitVec.getLsbD_of_ge]

@[simp] theorem rsvField_formatC (op : Byte) (imm : Half) : rsvField (formatC op imm) = 0x00#8 := by
  apply BitVec.eq_of_getLsbD_eq
  intro i hi
  simp [rsvField, formatC, BitVec.getLsbD_extractLsb', show 16 + i < 24 by omega, BitVec.getLsbD_of_ge]

@[simp] theorem immField_formatC (op : Byte) (imm : Half) : immField (formatC op imm) = imm := by
  apply BitVec.eq_of_getLsbD_eq
  intro i hi
  simp [immField, formatC, hi, show i < 24 by omega, show i < 32 by omega]

/-- A word in format C whose fields are those of another word with `rsv = 0` is that word. -/
theorem formatC_fields {w : Word} (h : rsvField w = 0x00#8) : formatC (opField w) (immField w) = w := by
  apply BitVec.eq_of_getLsbD_eq
  intro i hi
  have hr : ∀ j < 8, w.getLsbD (16 + j) = false := by
    intro j hj
    have := congrArg (fun b => BitVec.getLsbD b j) h
    simpa [rsvField, BitVec.getLsbD_extractLsb', hj] using this
  by_cases h1 : i < 16
  · simp [formatC, opField, immField, BitVec.getLsbD_extractLsb', h1, show i < 24 by omega, hi]
  · by_cases h2 : i < 24
    · have := hr (i - 16) (by omega)
      rw [show 16 + (i - 16) = i by omega] at this
      simp [formatC, opField, immField, BitVec.getLsbD_extractLsb', h1, h2, this]
    · simp [formatC, opField, immField, BitVec.getLsbD_extractLsb', h1, h2, hi, show i - 24 < 8 by omega,
        show 24 + (i - 24) = i by omega]

/-- The mask of a class I row keeps the opcode of a word in format C. -/
theorem formatC_masked (op : Byte) (imm : Half) : formatC op imm &&& 0xFFFF0000#32 = op.setWidth 32 <<< 24 := by
  apply BitVec.eq_of_getLsbD_eq
  intro i hi
  have hmask : (0xFFFF0000#32).getLsbD i = decide (16 ≤ i) := by
    revert i; decide
  rw [BitVec.getLsbD_and, hmask]
  by_cases h : 16 ≤ i
  · simp [formatC, h]
  · simp [formatC, h, show i < 24 by omega]

/-- A word matches a class I row of R87 exactly when `rsv` is zero and `op` is the row's. -/
theorem masked_eq_iff (w : Word) (op : Byte) :
    w &&& 0xFFFF0000#32 = op.setWidth 32 <<< 24 ↔ rsvField w = 0x00#8 ∧ opField w = op := by
  constructor
  · intro h
    have hbit : ∀ i < 16, w.getLsbD (16 + i) = (op.setWidth 32 <<< 24).getLsbD (16 + i) := by
      intro i hi
      have hmask : ∀ j < 16, (0xFFFF0000#32).getLsbD (16 + j) = true := by decide
      rw [← h, BitVec.getLsbD_and, hmask i hi, Bool.and_true]
    constructor <;> apply BitVec.eq_of_getLsbD_eq <;> intro i hi
    · simpa [rsvField, hi, show 16 + i < 24 by omega] using hbit i (by omega)
    · have := hbit (8 + i) (by omega)
      rw [show 16 + (8 + i) = 24 + i by omega] at this
      simpa [opField, hi, show 24 + i < 32 by omega] using this
  · rintro ⟨h, rfl⟩
    exact (congrArg (· &&& 0xFFFF0000#32) (formatC_fields h)).symm.trans (formatC_masked _ _)

/-- The four bytes of a word make the word (20_memory R61). -/
@[simp] theorem wordOfBytes_bytesOfWord (w : Word) :
    wordOfBytes (w.extractLsb' 0 8) (w.extractLsb' 8 8) (w.extractLsb' 16 8) (w.extractLsb' 24 8) = w := by
  apply BitVec.eq_of_getLsbD_eq
  intro i hi
  simp only [wordOfBytes, BitVec.getLsbD_or, BitVec.getLsbD_shiftLeft, BitVec.getLsbD_setWidth,
    BitVec.getLsbD_extractLsb']
  rcases (by omega : i < 8 ∨ 8 ≤ i ∧ i < 16 ∨ 16 ≤ i ∧ i < 24 ∨ 24 ≤ i ∧ i < 32) with h | h | h | h
  · simp [h, show i < 16 by omega, show i < 24 by omega, show i < 32 by omega]
  · simp [show ¬ i < 8 by omega, show i < 16 by omega, show i < 24 by omega, show i - 8 < 8 by omega, hi,
      show i - 8 < 32 by omega, show 8 + (i - 8) = i by omega]
  · simp [show ¬ i < 8 by omega, show ¬ i < 16 by omega, show i < 24 by omega, show ¬ i - 8 < 8 by omega,
      show i - 16 < 8 by omega, hi, show i - 16 < 32 by omega,
      show 16 + (i - 16) = i by omega]
  · simp [show ¬ i < 8 by omega, show ¬ i < 16 by omega, show ¬ i < 24 by omega, show ¬ i - 8 < 8 by omega,
      show ¬ i - 16 < 8 by omega, show i - 24 < 8 by omega, hi, show i - 24 < 32 by omega,
      show 24 + (i - 24) = i by omega]

end Sys2Proof
end

