-- ==== Sys2Proof/Laws/Memory.lean ====
section
/-! SUPPORT. The laws of memory: a read after a write, and that every operation keeps the canonical form. -/

namespace Sys2Proof.Machine

variable {w : Nat}

@[simp] theorem Memory.read_nil (a : Nat) : Memory.read ([] : Memory w) a = Memory.unlisted w := rfl

theorem Memory.read_cons (b a : Nat) (v : BitVec w) (rest : Memory w) :
    Memory.read ((b, v) :: rest) a = if b = a then v else Memory.read rest a := rfl

theorem Memory.read_erase (m : Memory w) (a b : Nat) :
    (m.erase a).read b = if b = a then Memory.unlisted w else m.read b := by
  induction m with
  | nil => simp [Memory.erase]
  | cons c rest ih =>
    obtain ⟨k, v⟩ := c
    simp only [Memory.erase] at ih ⊢
    by_cases hk : k = a
    · subst hk
      simp only [List.filter, ne_eq, not_true_eq_false, decide_false, ih, Memory.read_cons]
      by_cases hb : b = k <;> simp [hb, eq_comm]
    · simp only [List.filter, ne_eq, hk, not_false_eq_true, decide_true, Memory.read_cons, ih]
      by_cases hb : k = b
      · subst hb; simp [hk]
      · simp [hb]

theorem Memory.read_insertAt (m : Memory w) (a b : Nat) (v : BitVec w) :
    (m.insertAt a v).read b = if b = a then v else m.read b := by
  induction m with
  | nil => simp [Memory.insertAt, Memory.read_cons, eq_comm]
  | cons c rest ih =>
    obtain ⟨k, x⟩ := c
    unfold Memory.insertAt
    split
    · simp only [Memory.read_cons, eq_comm]
    · split
      · subst_vars
        simp only [Memory.read_cons]
        by_cases hb : b = k <;> simp [hb, eq_comm]
      · simp only [Memory.read_cons, ih]
        by_cases hb : k = b
        · subst hb; simp [show ¬ k = a by omega]
        · simp [hb]

/-- A read after a write to the same place gives the value written, and a write leaves every other place alone. -/
theorem Memory.read_write (m : Memory w) (a b : Nat) (v : BitVec w) :
    (m.write a v).read b = if b = a then v else m.read b := by
  unfold Memory.write
  split
  · subst_vars; exact Memory.read_erase m a b
  · exact Memory.read_insertAt m a b v

@[simp] theorem Memory.read_write_same (m : Memory w) (a : Nat) (v : BitVec w) : (m.write a v).read a = v := by
  simp [Memory.read_write]

theorem Memory.read_write_other (m : Memory w) {a b : Nat} (v : BitVec w) (h : b ≠ a) :
    (m.write a v).read b = m.read b := by
  simp [Memory.read_write, h]

theorem Memory.wfFrom_mono {lo lo' : Nat} {m : Memory w} (h : lo ≤ lo') (hm : m.wfFrom lo' = true) :
    m.wfFrom lo = true := by
  cases m with
  | nil => rfl
  | cons c rest =>
    simp only [Memory.wfFrom, Bool.and_eq_true, decide_eq_true_eq] at hm ⊢
    exact ⟨⟨by omega, hm.1.2⟩, hm.2⟩

theorem Memory.wfFrom_erase {m : Memory w} (a : Nat) : ∀ {lo : Nat}, m.wfFrom lo = true → (m.erase a).wfFrom lo = true := by
  induction m with
  | nil => intro lo _; rfl
  | cons c rest ih =>
    intro lo hm
    obtain ⟨k, v⟩ := c
    simp only [Memory.wfFrom, Bool.and_eq_true, decide_eq_true_eq] at hm
    have hrest := ih hm.2
    simp only [Memory.erase] at hrest ⊢
    by_cases hk : k = a
    · subst hk
      have hle : lo ≤ k + 1 := by omega
      simpa [List.filter] using Memory.wfFrom_mono hle hrest
    · simp only [List.filter, ne_eq, hk, not_false_eq_true, decide_true, Memory.wfFrom, Bool.and_eq_true,
        decide_eq_true_eq]
      exact ⟨hm.1, hrest⟩

theorem Memory.wfFrom_insertAt {m : Memory w} {a : Nat} {v : BitVec w} (hv : v ≠ Memory.unlisted w) :
    ∀ {lo : Nat}, lo ≤ a → m.wfFrom lo = true → (m.insertAt a v).wfFrom lo = true := by
  induction m with
  | nil => intro lo ha _; simp [Memory.insertAt, Memory.wfFrom, ha, hv]
  | cons c rest ih =>
    intro lo ha hm
    obtain ⟨k, x⟩ := c
    simp only [Memory.wfFrom, Bool.and_eq_true, decide_eq_true_eq] at hm
    unfold Memory.insertAt
    split
    · simp only [Memory.wfFrom, Bool.and_eq_true, decide_eq_true_eq]
      exact ⟨⟨ha, hv⟩, ⟨by omega, hm.1.2⟩, hm.2⟩
    · split
      · subst_vars
        simp only [Memory.wfFrom, Bool.and_eq_true, decide_eq_true_eq]
        exact ⟨⟨ha, hv⟩, hm.2⟩
      · simp only [Memory.wfFrom, Bool.and_eq_true, decide_eq_true_eq]
        exact ⟨hm.1, ih (by omega) hm.2⟩

/-- A write keeps the canonical form. -/
theorem Memory.wf_write {m : Memory w} (h : m.wf = true) (a : Nat) (v : BitVec w) : (m.write a v).wf = true := by
  unfold Memory.write
  split
  · exact Memory.wfFrom_erase a h
  · exact Memory.wfFrom_insertAt (by assumption) (Nat.zero_le a) h

theorem Memory.inside_iff {len : Word} {m : Memory w} :
    m.inside len = true ↔ ∀ c ∈ m, c.1 < len.toNat := by
  simp [Memory.inside]

theorem Memory.mem_insertAt {m : Memory w} {a : Nat} {v : BitVec w} {c : Nat × BitVec w}
    (h : c ∈ m.insertAt a v) : c = (a, v) ∨ c ∈ m := by
  induction m with
  | nil => exact .inl (by simpa [Memory.insertAt] using h)
  | cons d rest ih =>
    obtain ⟨k, x⟩ := d
    unfold Memory.insertAt at h
    split at h
    · simpa using h
    · split at h
      · rcases List.mem_cons.1 h with h | h
        · exact .inl h
        · exact .inr (List.mem_cons_of_mem _ h)
      · rcases List.mem_cons.1 h with h | h
        · exact .inr (h ▸ List.mem_cons_self)
        · exact (ih h).imp_right (List.mem_cons_of_mem _)

/-- A write below the length lists nothing at or beyond it. -/
theorem Memory.inside_write {len : Word} {m : Memory w} (h : m.inside len = true) {a : Nat} (ha : a < len.toNat)
    (v : BitVec w) : (m.write a v).inside len = true := by
  rw [Memory.inside_iff] at h ⊢
  unfold Memory.write
  split
  · exact fun c hc => h c (List.mem_of_mem_filter hc)
  · intro c hc
    rcases Memory.mem_insertAt hc with rfl | hc
    · exact ha
    · exact h c hc

/-! ### Writes in order -/

@[simp] theorem Memory.writeAll_nil (m : Memory w) : m.writeAll [] = m := rfl

@[simp] theorem Memory.writeAll_cons (m : Memory w) (c : Nat × BitVec w) (ws : List (Nat × BitVec w)) :
    m.writeAll (c :: ws) = (m.write c.1 c.2).writeAll ws := rfl

@[simp] theorem Memory.writeAll_append (m : Memory w) (ws ws' : List (Nat × BitVec w)) :
    m.writeAll (ws ++ ws') = (m.writeAll ws).writeAll ws' := by
  simp [Memory.writeAll]

theorem Memory.wf_writeAll {m : Memory w} (h : m.wf = true) (ws : List (Nat × BitVec w)) :
    (m.writeAll ws).wf = true := by
  induction ws generalizing m with
  | nil => exact h
  | cons c ws ih => exact ih (Memory.wf_write h c.1 c.2)

theorem Memory.inside_writeAll {len : Word} {m : Memory w} (h : m.inside len = true)
    {ws : List (Nat × BitVec w)} (hws : ∀ c ∈ ws, c.1 < len.toNat) : (m.writeAll ws).inside len = true := by
  induction ws generalizing m with
  | nil => exact h
  | cons c ws ih =>
    exact ih (Memory.inside_write h (hws c List.mem_cons_self) c.2) fun d hd => hws d (List.mem_cons_of_mem _ hd)

/-- An address no write names keeps what stood there. -/
theorem Memory.read_writeAll_other {ws : List (Nat × BitVec w)} {b : Nat} (hb : ∀ c ∈ ws, c.1 ≠ b) (m : Memory w) :
    (m.writeAll ws).read b = m.read b := by
  induction ws generalizing m with
  | nil => rfl
  | cons c ws ih =>
    rw [Memory.writeAll_cons, ih fun d hd => hb d (List.mem_cons_of_mem _ hd)]
    exact Memory.read_write_other m c.2 fun h => hb c List.mem_cons_self h.symm

/-- Where the writes go to different addresses, each one's value stands at its address after them all. -/
theorem Memory.read_writeAll_mem {ws : List (Nat × BitVec w)} (hn : (ws.map Prod.fst).Nodup) {c : Nat × BitVec w}
    (hc : c ∈ ws) (m : Memory w) : (m.writeAll ws).read c.1 = c.2 := by
  induction ws generalizing m with
  | nil => cases hc
  | cons d ws ih =>
    rw [List.map_cons, List.nodup_cons] at hn
    rw [Memory.writeAll_cons]
    rcases List.mem_cons.1 hc with rfl | hc
    · rw [Memory.read_writeAll_other, Memory.read_write_same]
      exact fun e he h => hn.1 (h ▸ List.mem_map_of_mem he)
    · exact ih hn.2 hc _

/-! ### Memories in canonical form are what they read as -/

theorem Memory.read_below {lo a : Nat} {m : Memory w} (h : m.wfFrom lo = true) (ha : a < lo) :
    m.read a = Memory.unlisted w := by
  induction m generalizing lo with
  | nil => rfl
  | cons c rest ih =>
    obtain ⟨k, v⟩ := c
    simp only [Memory.wfFrom, Bool.and_eq_true, decide_eq_true_eq] at h
    rw [Memory.read_cons, if_neg (by omega)]
    exact ih h.2 (by omega)

theorem Memory.eq_of_read_from {m n : Memory w} {lo lo' : Nat} (hm : m.wfFrom lo = true) (hn : n.wfFrom lo' = true)
    (h : ∀ a, m.read a = n.read a) : m = n := by
  induction m generalizing n lo lo' with
  | nil =>
    cases n with
    | nil => rfl
    | cons c rest =>
      obtain ⟨k, v⟩ := c
      simp only [Memory.wfFrom, Bool.and_eq_true, decide_eq_true_eq] at hn
      exact absurd (by simpa [Memory.read_cons] using (h k).symm) hn.1.2
  | cons c rest ih =>
    obtain ⟨k, v⟩ := c
    simp only [Memory.wfFrom, Bool.and_eq_true, decide_eq_true_eq] at hm
    cases n with
    | nil => exact absurd (by simpa [Memory.read_cons] using h k) hm.1.2
    | cons d rest' =>
      obtain ⟨l, x⟩ := d
      simp only [Memory.wfFrom, Bool.and_eq_true, decide_eq_true_eq] at hn
      have hk := h k
      have hl := h l
      simp only [Memory.read_cons, if_true] at hk hl
      have hkl : k = l := by
        rcases Nat.lt_trichotomy k l with hlt | heq | hgt
        · rw [if_neg (by omega), Memory.read_below hn.2 (by omega)] at hk
          exact absurd hk hm.1.2
        · exact heq
        · rw [if_neg (by omega), Memory.read_below hm.2 (by omega)] at hl
          exact absurd hl.symm hn.1.2
      subst hkl
      simp only [if_true] at hk
      subst hk
      congr 1
      refine ih hm.2 hn.2 fun a => ?_
      rcases Nat.lt_or_ge a (k + 1) with ha | ha
      · rw [Memory.read_below hm.2 ha, Memory.read_below hn.2 ha]
      · have := h a
        simpa [Memory.read_cons, show ¬ k = a by omega] using this

/-- Two memories in canonical form that read alike at every address are the same list. -/
theorem Memory.eq_of_read {m n : Memory w} (hm : m.wf = true) (hn : n.wf = true) (h : ∀ a, m.read a = n.read a) :
    m = n := Memory.eq_of_read_from hm hn h

/-! ### Memories made from a list -/

theorem Memory.wfFrom_ofListFrom (vs : List (BitVec w)) :
    ∀ {lo a : Nat}, lo ≤ a → (Memory.ofListFrom a vs).wfFrom lo = true := by
  induction vs with
  | nil => intro lo a _; rfl
  | cons v rest ih =>
    intro lo a h
    unfold Memory.ofListFrom
    split
    · exact ih (by omega)
    · simp only [Memory.wfFrom, Bool.and_eq_true, decide_eq_true_eq]
      exact ⟨⟨h, by assumption⟩, ih (Nat.le_refl _)⟩

theorem Memory.wf_ofList (vs : List (BitVec w)) : (Memory.ofList vs).wf = true :=
  Memory.wfFrom_ofListFrom vs (Nat.le_refl 0)

theorem Memory.read_ofListFrom (vs : List (BitVec w)) :
    ∀ (a b : Nat), a ≤ b → (Memory.ofListFrom a vs).read b = vs.getD (b - a) (Memory.unlisted w) := by
  induction vs with
  | nil => intro a b _; simp [Memory.ofListFrom]
  | cons v rest ih =>
    intro a b h
    by_cases hab : a = b
    · subst hab
      unfold Memory.ofListFrom
      split
      · subst_vars
        rw [Memory.read_below (Memory.wfFrom_ofListFrom rest (Nat.le_refl _)) (Nat.lt_succ_self a)]
        simp
      · simp [Memory.read_cons]
    · have hsub : b - a = (b - (a + 1)) + 1 := by omega
      have hrest := ih (a + 1) b (by omega)
      unfold Memory.ofListFrom
      split
      · rw [hrest, hsub, List.getD_cons_succ]
      · rw [Memory.read_cons, if_neg hab, hrest, hsub, List.getD_cons_succ]

/-- What a memory made from a list reads as. -/
theorem Memory.read_ofList (vs : List (BitVec w)) (a : Nat) :
    (Memory.ofList vs).read a = vs.getD a (Memory.unlisted w) := by
  simpa [Memory.ofList] using Memory.read_ofListFrom vs 0 a (Nat.zero_le a)

theorem Memory.mem_ofListFrom (vs : List (BitVec w)) :
    ∀ {a : Nat} {c : Nat × BitVec w}, c ∈ Memory.ofListFrom a vs → c.1 < a + vs.length := by
  induction vs with
  | nil => intro a c h; cases h
  | cons v rest ih =>
    intro a c h
    unfold Memory.ofListFrom at h
    split at h
    · have := ih h; simp only [List.length_cons]; omega
    · rcases List.mem_cons.1 h with rfl | h
      · simp
      · have := ih h; simp only [List.length_cons]; omega

/-- A memory made from a list lists nothing beyond it. -/
theorem Memory.inside_ofList {vs : List (BitVec w)} {len : Word} (h : vs.length ≤ len.toNat) :
    (Memory.ofList vs).inside len = true := by
  rw [Memory.inside_iff]
  intro c hc
  have := Memory.mem_ofListFrom vs hc
  omega

end Sys2Proof.Machine
end

