-- ==== Sys2Proof/Laws/Host.lean ====
section
/-! SUPPORT. What a run of several steps is, one step at a time, and which addresses are results. -/

namespace Sys2Proof.Machine

/-! ### The run -/

@[simp] theorem runState_zero (s : State) : runState 0 s = s := rfl

@[simp] theorem runEvents_zero (s : State) : runEvents 0 s = [] := rfl

theorem runState_of_next {s t : State} (h : step s = .next t) (n : Nat) : runState (n + 1) s = runState n t := by
  simp [runState, h]

theorem runEvents_of_next {s t : State} (h : step s = .next t) (n : Nat) :
    runEvents (n + 1) s = stepEvents s ++ runEvents n t := by
  simp [runEvents, h]

/-- Where there is no next state the run stays where it is and makes no transaction. -/
theorem run_of_noNext {s : State} (h : ∀ t, step s ≠ .next t) (n : Nat) : runState n s = s ∧ runEvents n s = [] := by
  cases n with
  | zero => exact ⟨rfl, rfl⟩
  | succ n =>
    cases hs : step s with
    | next t => exact absurd hs (h t)
    | fault r => simp [runState, runEvents, hs]
    | refused r => simp [runState, runEvents, hs]

theorem outWrites_append (l l' : List BusEvent) : outWrites (l ++ l') = outWrites l ++ outWrites l' := by
  induction l with
  | nil => rfl
  | cons e l ih => cases e <;> simp [outWrites, ih]

/-! ### The results -/

/-- The addresses after putting a value at `a`: `a` and those before. -/
theorem Memory.mem_fst_insertAt {w : Nat} (m : Memory w) (a b : Nat) (v : BitVec w) :
    b ∈ (m.insertAt a v).map Prod.fst ↔ b = a ∨ b ∈ m.map Prod.fst := by
  induction m with
  | nil => simp [Memory.insertAt]
  | cons c rest ih =>
    obtain ⟨k, x⟩ := c
    unfold Memory.insertAt
    split
    · simp
    · split
      · subst_vars; simp
      · simp only [List.map_cons, List.mem_cons, ih]
        exact or_left_comm

/-- Rising addresses stay rising. -/
theorem Memory.rising_insertAt {w : Nat} {m : Memory w} (h : (m.map Prod.fst).Pairwise (· < ·)) (a : Nat)
    (v : BitVec w) : ((m.insertAt a v).map Prod.fst).Pairwise (· < ·) := by
  induction m with
  | nil => simp [Memory.insertAt]
  | cons c rest ih =>
    obtain ⟨k, x⟩ := c
    rw [List.map_cons, List.pairwise_cons] at h
    unfold Memory.insertAt
    split
    · rw [List.map_cons, List.pairwise_cons, List.map_cons, List.pairwise_cons]
      refine ⟨fun b hb => ?_, h⟩
      rcases List.mem_cons.1 hb with rfl | hb
      · assumption
      · exact Nat.lt_trans ‹_› (h.1 b hb)
    · split
      · subst_vars; exact List.pairwise_cons.2 h
      · refine List.pairwise_cons.2 ⟨fun b hb => ?_, ih h.2⟩
        rcases (Memory.mem_fst_insertAt rest a b v).1 hb with rfl | hb
        · show k < b; omega
        · exact h.1 b hb

/-- The fold of `packedBytes`, from any memory: its addresses, and that rising ones stay so. -/
theorem foldl_insertAt_addresses (ws : List (Word × Byte)) : ∀ m : Memory 8,
    (∀ a, a ∈ (ws.foldl (fun m x => Memory.insertAt m x.1.toNat x.2) m).map Prod.fst ↔
      (∃ x ∈ ws, x.1.toNat = a) ∨ a ∈ m.map Prod.fst) ∧
    ((m.map Prod.fst).Pairwise (· < ·) →
      ((ws.foldl (fun m x => Memory.insertAt m x.1.toNat x.2) m).map Prod.fst).Pairwise (· < ·)) := by
  induction ws with
  | nil => intro m; simp
  | cons x ws ih =>
    intro m
    obtain ⟨hmem, hrise⟩ := ih (m.insertAt x.1.toNat x.2)
    refine ⟨fun a => ?_, fun h => hrise (Memory.rising_insertAt h _ _)⟩
    rw [List.foldl_cons, hmem, Memory.mem_fst_insertAt]
    simp only [List.mem_cons, exists_eq_or_imp, eq_comm (a := a)]
    exact or_left_comm.trans or_assoc.symm

/-- A result is an address that a packed-byte write went to. -/
theorem mem_resultAddresses {events : List BusEvent} {a : Nat} :
    a ∈ resultAddresses events ↔ ∃ x ∈ outWrites events, x.1.toNat = a := by
  simp [resultAddresses, packedBytes, (foldl_insertAt_addresses _ []).1 a]

/-- The results rise, each address once. -/
theorem resultAddresses_rising (events : List BusEvent) : (resultAddresses events).Pairwise (· < ·) :=
  (foldl_insertAt_addresses (outWrites events) []).2 .nil

/-- The image is packed when every address of it has been written. -/
theorem imageIsPacked_iff {events : List BusEvent} {s : State} :
    s.imageIsPacked events = true ↔
      ∀ a < s.pages * s.width.toNat, ∃ x ∈ outWrites events, x.1.toNat = a := by
  simp [State.imageIsPacked, mem_resultAddresses]

end Sys2Proof.Machine
end

