-- ==== Sys2Proof/Laws/State.lean ====
section
/-! SUPPORT. One lemma per field of State per update, true by `rfl`, so that no later proof unfolds a record update. -/

namespace Sys2Proof.Machine

/-! ### advance -/

@[simp] theorem State.advance_pc (s : State) : s.advance.pc = s.pc + 1#32 := rfl
@[simp] theorem State.advance_page (s : State) : s.advance.page = s.page := rfl
@[simp] theorem State.advance_col (s : State) : s.advance.col = s.col := rfl
@[simp] theorem State.advance_thr (s : State) : s.advance.thr = s.thr := rfl
@[simp] theorem State.advance_width (s : State) : s.advance.width = s.width := rfl
@[simp] theorem State.advance_height (s : State) : s.advance.height = s.height := rfl
@[simp] theorem State.advance_status (s : State) : s.advance.status = s.status := rfl
@[simp] theorem State.advance_prog (s : State) : s.advance.prog = s.prog := rfl
@[simp] theorem State.advance_progLen (s : State) : s.advance.progLen = s.progLen := rfl
@[simp] theorem State.advance_img (s : State) : s.advance.img = s.img := rfl
@[simp] theorem State.advance_imgLen (s : State) : s.advance.imgLen = s.imgLen := rfl
@[simp] theorem State.advance_out (s : State) : s.advance.out = s.out := rfl
@[simp] theorem State.advance_outLen (s : State) : s.advance.outLen = s.outLen := rfl

/-! ### setThr -/

@[simp] theorem State.setThr_pc (s : State) (v : Byte) : (s.setThr v).pc = s.pc := rfl
@[simp] theorem State.setThr_page (s : State) (v : Byte) : (s.setThr v).page = s.page := rfl
@[simp] theorem State.setThr_col (s : State) (v : Byte) : (s.setThr v).col = s.col := rfl
@[simp] theorem State.setThr_thr (s : State) (v : Byte) : (s.setThr v).thr = v := rfl
@[simp] theorem State.setThr_width (s : State) (v : Byte) : (s.setThr v).width = s.width := rfl
@[simp] theorem State.setThr_height (s : State) (v : Byte) : (s.setThr v).height = s.height := rfl
@[simp] theorem State.setThr_status (s : State) (v : Byte) : (s.setThr v).status = s.status := rfl
@[simp] theorem State.setThr_prog (s : State) (v : Byte) : (s.setThr v).prog = s.prog := rfl
@[simp] theorem State.setThr_progLen (s : State) (v : Byte) : (s.setThr v).progLen = s.progLen := rfl
@[simp] theorem State.setThr_img (s : State) (v : Byte) : (s.setThr v).img = s.img := rfl
@[simp] theorem State.setThr_imgLen (s : State) (v : Byte) : (s.setThr v).imgLen = s.imgLen := rfl
@[simp] theorem State.setThr_out (s : State) (v : Byte) : (s.setThr v).out = s.out := rfl
@[simp] theorem State.setThr_outLen (s : State) (v : Byte) : (s.setThr v).outLen = s.outLen := rfl

/-! ### setWidth -/

@[simp] theorem State.setWidth_pc (s : State) (v : Half) : (s.setWidth v).pc = s.pc := rfl
@[simp] theorem State.setWidth_page (s : State) (v : Half) : (s.setWidth v).page = s.page := rfl
@[simp] theorem State.setWidth_col (s : State) (v : Half) : (s.setWidth v).col = s.col := rfl
@[simp] theorem State.setWidth_thr (s : State) (v : Half) : (s.setWidth v).thr = s.thr := rfl
@[simp] theorem State.setWidth_width (s : State) (v : Half) : (s.setWidth v).width = v := rfl
@[simp] theorem State.setWidth_height (s : State) (v : Half) : (s.setWidth v).height = s.height := rfl
@[simp] theorem State.setWidth_status (s : State) (v : Half) : (s.setWidth v).status = s.status := rfl
@[simp] theorem State.setWidth_prog (s : State) (v : Half) : (s.setWidth v).prog = s.prog := rfl
@[simp] theorem State.setWidth_progLen (s : State) (v : Half) : (s.setWidth v).progLen = s.progLen := rfl
@[simp] theorem State.setWidth_img (s : State) (v : Half) : (s.setWidth v).img = s.img := rfl
@[simp] theorem State.setWidth_imgLen (s : State) (v : Half) : (s.setWidth v).imgLen = s.imgLen := rfl
@[simp] theorem State.setWidth_out (s : State) (v : Half) : (s.setWidth v).out = s.out := rfl
@[simp] theorem State.setWidth_outLen (s : State) (v : Half) : (s.setWidth v).outLen = s.outLen := rfl

/-! ### setHeight -/

@[simp] theorem State.setHeight_pc (s : State) (v : Half) : (s.setHeight v).pc = s.pc := rfl
@[simp] theorem State.setHeight_page (s : State) (v : Half) : (s.setHeight v).page = s.page := rfl
@[simp] theorem State.setHeight_col (s : State) (v : Half) : (s.setHeight v).col = s.col := rfl
@[simp] theorem State.setHeight_thr (s : State) (v : Half) : (s.setHeight v).thr = s.thr := rfl
@[simp] theorem State.setHeight_width (s : State) (v : Half) : (s.setHeight v).width = s.width := rfl
@[simp] theorem State.setHeight_height (s : State) (v : Half) : (s.setHeight v).height = v := rfl
@[simp] theorem State.setHeight_status (s : State) (v : Half) : (s.setHeight v).status = s.status := rfl
@[simp] theorem State.setHeight_prog (s : State) (v : Half) : (s.setHeight v).prog = s.prog := rfl
@[simp] theorem State.setHeight_progLen (s : State) (v : Half) : (s.setHeight v).progLen = s.progLen := rfl
@[simp] theorem State.setHeight_img (s : State) (v : Half) : (s.setHeight v).img = s.img := rfl
@[simp] theorem State.setHeight_imgLen (s : State) (v : Half) : (s.setHeight v).imgLen = s.imgLen := rfl
@[simp] theorem State.setHeight_out (s : State) (v : Half) : (s.setHeight v).out = s.out := rfl
@[simp] theorem State.setHeight_outLen (s : State) (v : Half) : (s.setHeight v).outLen = s.outLen := rfl

/-! ### setPage -/

@[simp] theorem State.setPage_pc (s : State) (v : Half) : (s.setPage v).pc = s.pc := rfl
@[simp] theorem State.setPage_page (s : State) (v : Half) : (s.setPage v).page = v := rfl
@[simp] theorem State.setPage_col (s : State) (v : Half) : (s.setPage v).col = s.col := rfl
@[simp] theorem State.setPage_thr (s : State) (v : Half) : (s.setPage v).thr = s.thr := rfl
@[simp] theorem State.setPage_width (s : State) (v : Half) : (s.setPage v).width = s.width := rfl
@[simp] theorem State.setPage_height (s : State) (v : Half) : (s.setPage v).height = s.height := rfl
@[simp] theorem State.setPage_status (s : State) (v : Half) : (s.setPage v).status = s.status := rfl
@[simp] theorem State.setPage_prog (s : State) (v : Half) : (s.setPage v).prog = s.prog := rfl
@[simp] theorem State.setPage_progLen (s : State) (v : Half) : (s.setPage v).progLen = s.progLen := rfl
@[simp] theorem State.setPage_img (s : State) (v : Half) : (s.setPage v).img = s.img := rfl
@[simp] theorem State.setPage_imgLen (s : State) (v : Half) : (s.setPage v).imgLen = s.imgLen := rfl
@[simp] theorem State.setPage_out (s : State) (v : Half) : (s.setPage v).out = s.out := rfl
@[simp] theorem State.setPage_outLen (s : State) (v : Half) : (s.setPage v).outLen = s.outLen := rfl

/-! ### setCol -/

@[simp] theorem State.setCol_pc (s : State) (v : Half) : (s.setCol v).pc = s.pc := rfl
@[simp] theorem State.setCol_page (s : State) (v : Half) : (s.setCol v).page = s.page := rfl
@[simp] theorem State.setCol_col (s : State) (v : Half) : (s.setCol v).col = v := rfl
@[simp] theorem State.setCol_thr (s : State) (v : Half) : (s.setCol v).thr = s.thr := rfl
@[simp] theorem State.setCol_width (s : State) (v : Half) : (s.setCol v).width = s.width := rfl
@[simp] theorem State.setCol_height (s : State) (v : Half) : (s.setCol v).height = s.height := rfl
@[simp] theorem State.setCol_status (s : State) (v : Half) : (s.setCol v).status = s.status := rfl
@[simp] theorem State.setCol_prog (s : State) (v : Half) : (s.setCol v).prog = s.prog := rfl
@[simp] theorem State.setCol_progLen (s : State) (v : Half) : (s.setCol v).progLen = s.progLen := rfl
@[simp] theorem State.setCol_img (s : State) (v : Half) : (s.setCol v).img = s.img := rfl
@[simp] theorem State.setCol_imgLen (s : State) (v : Half) : (s.setCol v).imgLen = s.imgLen := rfl
@[simp] theorem State.setCol_out (s : State) (v : Half) : (s.setCol v).out = s.out := rfl
@[simp] theorem State.setCol_outLen (s : State) (v : Half) : (s.setCol v).outLen = s.outLen := rfl

/-! ### markHalted -/

@[simp] theorem State.markHalted_pc (s : State) : s.markHalted.pc = s.pc := rfl
@[simp] theorem State.markHalted_page (s : State) : s.markHalted.page = s.page := rfl
@[simp] theorem State.markHalted_col (s : State) : s.markHalted.col = s.col := rfl
@[simp] theorem State.markHalted_thr (s : State) : s.markHalted.thr = s.thr := rfl
@[simp] theorem State.markHalted_width (s : State) : s.markHalted.width = s.width := rfl
@[simp] theorem State.markHalted_height (s : State) : s.markHalted.height = s.height := rfl
@[simp] theorem State.markHalted_status (s : State) : s.markHalted.status = statusHalted s.status := rfl
@[simp] theorem State.markHalted_prog (s : State) : s.markHalted.prog = s.prog := rfl
@[simp] theorem State.markHalted_progLen (s : State) : s.markHalted.progLen = s.progLen := rfl
@[simp] theorem State.markHalted_img (s : State) : s.markHalted.img = s.img := rfl
@[simp] theorem State.markHalted_imgLen (s : State) : s.markHalted.imgLen = s.imgLen := rfl
@[simp] theorem State.markHalted_out (s : State) : s.markHalted.out = s.out := rfl
@[simp] theorem State.markHalted_outLen (s : State) : s.markHalted.outLen = s.outLen := rfl

/-! ### takeFault -/

@[simp] theorem State.takeFault_pc (k : Cause) (s : State) : (s.takeFault k).pc = s.pc := rfl
@[simp] theorem State.takeFault_page (k : Cause) (s : State) : (s.takeFault k).page = s.page := rfl
@[simp] theorem State.takeFault_col (k : Cause) (s : State) : (s.takeFault k).col = s.col := rfl
@[simp] theorem State.takeFault_thr (k : Cause) (s : State) : (s.takeFault k).thr = s.thr := rfl
@[simp] theorem State.takeFault_width (k : Cause) (s : State) : (s.takeFault k).width = s.width := rfl
@[simp] theorem State.takeFault_height (k : Cause) (s : State) : (s.takeFault k).height = s.height := rfl
@[simp] theorem State.takeFault_status (k : Cause) (s : State) : (s.takeFault k).status = statusFaulted k s.status := rfl
@[simp] theorem State.takeFault_prog (k : Cause) (s : State) : (s.takeFault k).prog = s.prog := rfl
@[simp] theorem State.takeFault_progLen (k : Cause) (s : State) : (s.takeFault k).progLen = s.progLen := rfl
@[simp] theorem State.takeFault_img (k : Cause) (s : State) : (s.takeFault k).img = s.img := rfl
@[simp] theorem State.takeFault_imgLen (k : Cause) (s : State) : (s.takeFault k).imgLen = s.imgLen := rfl
@[simp] theorem State.takeFault_out (k : Cause) (s : State) : (s.takeFault k).out = s.out := rfl
@[simp] theorem State.takeFault_outLen (k : Cause) (s : State) : (s.takeFault k).outLen = s.outLen := rfl

/-! ### writeOut -/

@[simp] theorem State.writeOut_pc (s : State) (ws : List Host.Cell) : (s.writeOut ws).pc = s.pc := rfl
@[simp] theorem State.writeOut_page (s : State) (ws : List Host.Cell) : (s.writeOut ws).page = s.page := rfl
@[simp] theorem State.writeOut_col (s : State) (ws : List Host.Cell) : (s.writeOut ws).col = s.col := rfl
@[simp] theorem State.writeOut_thr (s : State) (ws : List Host.Cell) : (s.writeOut ws).thr = s.thr := rfl
@[simp] theorem State.writeOut_width (s : State) (ws : List Host.Cell) : (s.writeOut ws).width = s.width := rfl
@[simp] theorem State.writeOut_height (s : State) (ws : List Host.Cell) : (s.writeOut ws).height = s.height := rfl
@[simp] theorem State.writeOut_status (s : State) (ws : List Host.Cell) : (s.writeOut ws).status = s.status := rfl
@[simp] theorem State.writeOut_prog (s : State) (ws : List Host.Cell) : (s.writeOut ws).prog = s.prog := rfl
@[simp] theorem State.writeOut_progLen (s : State) (ws : List Host.Cell) : (s.writeOut ws).progLen = s.progLen := rfl
@[simp] theorem State.writeOut_img (s : State) (ws : List Host.Cell) : (s.writeOut ws).img = s.img := rfl
@[simp] theorem State.writeOut_imgLen (s : State) (ws : List Host.Cell) : (s.writeOut ws).imgLen = s.imgLen := rfl
@[simp] theorem State.writeOut_out (s : State) (ws : List Host.Cell) : (s.writeOut ws).out = s.out.writeAll ws := rfl
@[simp] theorem State.writeOut_outLen (s : State) (ws : List Host.Cell) : (s.writeOut ws).outLen = s.outLen := rfl

/-! ### applyReset -/

@[simp] theorem State.applyReset_pc (s : State) : s.applyReset.pc = 0#32 := rfl
@[simp] theorem State.applyReset_page (s : State) : s.applyReset.page = 0#16 := rfl
@[simp] theorem State.applyReset_col (s : State) : s.applyReset.col = 0#16 := rfl
@[simp] theorem State.applyReset_thr (s : State) : s.applyReset.thr = Config.thrReset := rfl
@[simp] theorem State.applyReset_width (s : State) : s.applyReset.width = 0#16 := rfl
@[simp] theorem State.applyReset_height (s : State) : s.applyReset.height = 0#16 := rfl
@[simp] theorem State.applyReset_status (s : State) : s.applyReset.status = 0#8 := rfl
@[simp] theorem State.applyReset_prog (s : State) : s.applyReset.prog = s.prog := rfl
@[simp] theorem State.applyReset_progLen (s : State) : s.applyReset.progLen = s.progLen := rfl
@[simp] theorem State.applyReset_img (s : State) : s.applyReset.img = s.img := rfl
@[simp] theorem State.applyReset_imgLen (s : State) : s.applyReset.imgLen = s.imgLen := rfl
@[simp] theorem State.applyReset_out (s : State) : s.applyReset.out = s.out := rfl
@[simp] theorem State.applyReset_outLen (s : State) : s.applyReset.outLen = s.outLen := rfl

/-! ### placeCommand -/

@[simp] theorem State.placeCommand_page (s : State) (w : Word) : (s.placeCommand w).page = s.page := rfl
@[simp] theorem State.placeCommand_col (s : State) (w : Word) : (s.placeCommand w).col = s.col := rfl
@[simp] theorem State.placeCommand_thr (s : State) (w : Word) : (s.placeCommand w).thr = s.thr := rfl
@[simp] theorem State.placeCommand_width (s : State) (w : Word) : (s.placeCommand w).width = s.width := rfl
@[simp] theorem State.placeCommand_height (s : State) (w : Word) : (s.placeCommand w).height = s.height := rfl
@[simp] theorem State.placeCommand_img (s : State) (w : Word) : (s.placeCommand w).img = s.img := rfl
@[simp] theorem State.placeCommand_imgLen (s : State) (w : Word) : (s.placeCommand w).imgLen = s.imgLen := rfl
@[simp] theorem State.placeCommand_out (s : State) (w : Word) : (s.placeCommand w).out = s.out := rfl
@[simp] theorem State.placeCommand_outLen (s : State) (w : Word) : (s.placeCommand w).outLen = s.outLen := rfl

end Sys2Proof.Machine
end

