-- ==== Sys2Proof/Laws/Ops.lean ====
section
/-! SUPPORT. For each shared operation, what it can do: the tests of a command, STATUS, the sequencer, a step. -/

namespace Sys2Proof.Machine

/-! ### Tests -/

@[simp] theorem firstRaised_nil : firstRaised [] = none := rfl

theorem firstRaised_cons (b : Bool) (k : Cause) (rest : List Test) :
    firstRaised (⟨b, k⟩ :: rest) = if b = true then some k else firstRaised rest := rfl

theorem firstRaised_eq_none_iff {tests : List Test} :
    firstRaised tests = none ↔ ∀ x ∈ tests, x.raises = false := by
  induction tests with
  | nil => simp
  | cons x rest ih =>
    obtain ⟨b, k⟩ := x
    cases b <;> simp [firstRaised_cons, ih]

theorem guarded_of_raised {tests : List Test} {ws : List Host.Cell} {s : State} {k : Cause}
    (h : firstRaised tests = some k) : guarded tests ws s = .next (s.takeFault k) := by
  simp [guarded, h]

theorem guarded_of_none {tests : List Test} {ws : List Host.Cell} {s : State} (h : firstRaised tests = none) :
    guarded tests ws s = .next ((s.writeOut ws).advance) := by
  simp [guarded, h]

/-- A guarded command raises one fault, or makes all its writes and advances PC. -/
theorem guarded_cases {tests : List Test} {ws : List Host.Cell} {s t : State} (h : guarded tests ws s = .next t) :
    (∃ k, firstRaised tests = some k ∧ t = s.takeFault k) ∨
      (firstRaised tests = none ∧ t = (s.writeOut ws).advance) := by
  unfold guarded at h
  split at h
  · exact .inl ⟨_, by assumption, (Host.Outcome.next.inj h).symm⟩
  · exact .inr ⟨by assumption, (Host.Outcome.next.inj h).symm⟩

/-- Every command of `exec` has a next state in every state. -/
theorem exec_isNext (i : Instr) (s : State) : ∃ t, exec i s = .next t := by
  have hg : ∀ tests ws, ∃ t, guarded tests ws s = .next t := by
    intro tests ws
    unfold guarded
    split <;> exact ⟨_, rfl⟩
  cases i <;> simp only [exec]
  case setthr imm => unfold execSetthr; split <;> exact ⟨_, rfl⟩
  case packcol => exact hg _ _
  case packpage => exact hg _ _
  case packimg => exact hg _ _
  all_goals exact ⟨_, rfl⟩

/-! ### STATUS -/

theorem statusFaulted_fault (k : Cause) (b : Byte) : (statusFaulted k b).getLsbD 1 = true := by
  cases k <;> simp [statusFaulted, Cause.code]

theorem statusHalted_halt (b : Byte) : (statusHalted b).getLsbD 0 = true := by
  simp [statusHalted]

@[simp] theorem State.takeFault_stopped (k : Cause) (s : State) : (s.takeFault k).stopped = true := by
  simp [State.stopped, State.fault, statusFaulted_fault]

@[simp] theorem State.markHalted_stopped (s : State) : s.markHalted.stopped = true := by
  simp [State.stopped, State.halt, statusHalted_halt]

/-! ### The sequencer and the step -/

theorem step_of_stopped {s : State} (h : s.stopped = true) : step s = .fault .stopped := by
  simp [step, sequence, h]

theorem step_of_noFetch {s : State} (h : s.stopped = false) (hf : s.canFetch = false) :
    step s = .next (s.takeFault .fetch) := by
  simp [step, sequence, h, hf]

theorem step_of_illegal {s : State} (h : s.stopped = false) (hf : s.canFetch = true) {why : IllegalWord}
    (hd : decode s.fetchWord = .illegal why) : step s = .next (s.takeFault .illegal) := by
  simp [step, sequence, h, hf, hd]

theorem step_of_command {s : State} (h : s.stopped = false) (hf : s.canFetch = true) {i : Instr}
    (hd : decode s.fetchWord = .command i) : step s = exec i s := by
  simp [step, sequence, h, hf, hd]

/-- What a step that has a next state did: it raised FETCH, raised ILLEGAL, or executed a command. -/
theorem step_cases {s t : State} (h : step s = .next t) :
    s.stopped = false ∧
      ((s.canFetch = false ∧ t = s.takeFault .fetch) ∨
        (s.canFetch = true ∧ (∃ why, decode s.fetchWord = .illegal why) ∧ t = s.takeFault .illegal) ∨
        (s.canFetch = true ∧ ∃ i, decode s.fetchWord = .command i ∧ exec i s = .next t)) := by
  by_cases hs : s.stopped = true
  · rw [step_of_stopped hs] at h; cases h
  · rw [Bool.not_eq_true] at hs
    refine ⟨hs, ?_⟩
    by_cases hf : s.canFetch = true
    · cases hd : decode s.fetchWord with
      | command i => exact .inr (.inr ⟨hf, i, rfl, by rw [← step_of_command hs hf hd]; exact h⟩)
      | illegal why =>
        rw [step_of_illegal hs hf hd] at h
        exact .inr (.inl ⟨hf, ⟨why, rfl⟩, (Host.Outcome.next.inj h).symm⟩)
    · rw [Bool.not_eq_true] at hf
      rw [step_of_noFetch hs hf] at h
      exact .inl ⟨hf, (Host.Outcome.next.inj h).symm⟩

end Sys2Proof.Machine
end

