-- ==== Sys2Proof/Laws/Pack.lean ====
section
/-! SUPPORT. What the shared pieces of the pack commands are: the loop over the bits, the pages that exist, the
addresses of the writes. -/

namespace Sys2Proof.Machine

/-! ### The loop over the bits -/

theorem getLsbD_foldl_packStep (img : Image) (H : Nat) (t : Byte) (p c : Nat) {j : Nat} (hj : j < 8) :
    ∀ (l : List Nat) (b : Byte), (l.foldl (packStep img H t p c) b).getLsbD j =
      (b.getLsbD j ||
        (decide (j ∈ l) && (decide (8 * p + j < H) && decide (t.toNat ≤ (img (8 * p + j) c).toNat)))) := by
  intro l
  induction l with
  | nil => intro b; simp
  | cons i rest ih =>
    intro b
    rw [List.foldl_cons, ih]
    have hone : (1#8 <<< i).getLsbD j = decide (i = j) := by
      simp only [BitVec.getLsbD_shiftLeft, BitVec.getLsbD_one, hj, decide_true, Bool.true_and]
      by_cases h : i = j <;> simp [h]
      omega
    by_cases hij : i = j
    · subst hij
      by_cases h1 : 8 * p + i < H <;> by_cases h2 : t.toNat ≤ (img (8 * p + i) c).toNat <;>
        simp [packStep, h1, h2, hone]
    · have hstep : (packStep img H t p c b i).getLsbD j = b.getLsbD j := by
        unfold packStep
        split
        · split
          · rw [BitVec.getLsbD_or, hone]; simp [hij]
          · rfl
        · rfl
      rw [hstep]
      simp [show ¬ j = i from fun h => hij h.symm]

/-- Bit `j` after the loop: the row exists and its sample is at or above the threshold. -/
theorem packLoop_getLsbD (img : Image) (H : Nat) (t : Byte) (p c : Nat) {j : Nat} (hj : j < 8) :
    (packLoop img H t p c).getLsbD j =
      (decide (8 * p + j < H) && decide (t.toNat ≤ (img (8 * p + j) c).toNat)) := by
  rw [packLoop, getLsbD_foldl_packStep img H t p c hj]
  simp [hj]

/-! ### Pages and addresses -/

/-- A page exists exactly when its first row does. -/
theorem lt_pageCount_iff {p H : Nat} : p < pageCount H ↔ 8 * p < H := by
  unfold pageCount
  omega

/-- Different (page, column) pairs have different addresses. -/
theorem pair_eq_of_address {W p c p' c' : Nat} (hc : c < W) (hc' : c' < W) (h : p * W + c = p' * W + c') :
    p = p' ∧ c = c' := by
  have hW : 0 < W := by omega
  have hdiv : ∀ q d, d < W → (q * W + d) / W = q := by
    intro q d hd
    rw [Nat.mul_comm, Nat.mul_add_div hW, Nat.div_eq_of_lt hd, Nat.add_zero]
  have hp : p = p' := by rw [← hdiv p c hc, ← hdiv p' c' hc', h]
  subst hp
  exact ⟨rfl, by omega⟩

/-- The addresses of a page that exists are below those of the pages after it. -/
theorem address_lt {W p c n : Nat} (hp : p < n) (hc : c < W) : p * W + c < n * W := by
  have : (p + 1) * W ≤ n * W := Nat.mul_le_mul_right W hp
  rw [Nat.add_mul] at this
  omega

/-! ### The writes of a page and of an image -/

theorem mem_pageWrites {s : State} {p : Nat} {x : Host.Cell} :
    x ∈ s.pageWrites p ↔ ∃ c < s.width.toNat, s.cellWrite p c = x := by
  simp [State.pageWrites]

theorem mem_imageWrites {s : State} {x : Host.Cell} :
    x ∈ s.imageWrites ↔ ∃ p < s.pages, ∃ c < s.width.toNat, s.cellWrite p c = x := by
  simp [State.imageWrites, mem_pageWrites]

/-- The writes of a page go to different addresses. -/
theorem nodup_pageWrites (s : State) (p : Nat) : ((s.pageWrites p).map Prod.fst).Nodup := by
  rw [State.pageWrites, List.map_map]
  exact List.Nodup.map (fun c c' h => by simpa [State.cellWrite, State.outAddress] using h) List.nodup_range

/-- The writes of an image go to different addresses. -/
theorem nodup_imageWrites (s : State) : (s.imageWrites.map Prod.fst).Nodup := by
  rw [State.imageWrites, List.map_flatMap, List.nodup_flatMap]
  refine ⟨fun p _ => nodup_pageWrites s p, List.nodup_range.imp ?_⟩
  intro p q hpq a ha hb
  simp only [List.mem_map, mem_pageWrites] at ha hb
  obtain ⟨x, ⟨c, hc, rfl⟩, rfl⟩ := ha
  obtain ⟨y, ⟨d, hd, rfl⟩, h⟩ := hb
  exact hpq (pair_eq_of_address hd hc h).1.symm

end Sys2Proof.Machine
end

