-- ==== Sys2Proof/Laws/PerInstr.lean ====
section
/-! SUPPORT. Statements made per constructor of `Instr`. Family `Format`: every command is well formed, its word
is in format C with `rsv = 0` (30_encoding R84), and the word matches the command's row of R87. -/

namespace Sys2Proof.Laws

/-- What the family says of one command. -/
def Format.Statement (i : Instr) : Prop :=
  i.wf = true ∧ rsvField (encode i) = 0x00#8 ∧ (opRow i).holds (encode i) = true

theorem operandOk_half (imm : Half) : operandOk imm.toNat = true := by
  simp only [operandOk, decide_eq_true_eq]
  omega

theorem Format.setthr (imm : Half) : Format.Statement (.setthr imm) :=
  ⟨operandOk_half imm, rsvField_formatC _ _, by
    simp only [OpRow.holds, opRow, encode, formatC_masked]; rfl⟩

theorem Format.setw (imm : Half) : Format.Statement (.setw imm) :=
  ⟨operandOk_half imm, rsvField_formatC _ _, by
    simp only [OpRow.holds, opRow, encode, formatC_masked]; rfl⟩

theorem Format.seth (imm : Half) : Format.Statement (.seth imm) :=
  ⟨operandOk_half imm, rsvField_formatC _ _, by
    simp only [OpRow.holds, opRow, encode, formatC_masked]; rfl⟩

theorem Format.setpage (imm : Half) : Format.Statement (.setpage imm) :=
  ⟨operandOk_half imm, rsvField_formatC _ _, by
    simp only [OpRow.holds, opRow, encode, formatC_masked]; rfl⟩

theorem Format.setcol (imm : Half) : Format.Statement (.setcol imm) :=
  ⟨operandOk_half imm, rsvField_formatC _ _, by
    simp only [OpRow.holds, opRow, encode, formatC_masked]; rfl⟩

theorem Format.nop : Format.Statement .nop := ⟨rfl, by decide, by decide⟩

theorem Format.packcol : Format.Statement .packcol := ⟨rfl, by decide, by decide⟩

theorem Format.packpage : Format.Statement .packpage := ⟨rfl, by decide, by decide⟩

theorem Format.packimg : Format.Statement .packimg := ⟨rfl, by decide, by decide⟩

theorem Format.endRun : Format.Statement .endRun := ⟨rfl, by decide, by decide⟩

end Sys2Proof.Laws
end

