-- ==== Sys2Proof/Laws/Wf.lean ====
section
/-! SUPPORT. The three memories keep their canonical form and stay inside their lengths under every operation on
State that touches them. -/

namespace Sys2Proof.Machine

theorem State.reset_memoriesWf : State.reset.MemoriesWf := ⟨rfl, rfl, rfl, rfl, rfl, rfl⟩

/-- Reset touches no memory. -/
theorem State.MemoriesWf.applyReset {s : State} (h : s.MemoriesWf) : s.applyReset.MemoriesWf :=
  ⟨h.prog, h.img, h.out, h.progInside, h.imgInside, h.outInside⟩

/-- Writes below OUT_LEN. -/
theorem State.MemoriesWf.writeOut {s : State} (h : s.MemoriesWf) {ws : List Host.Cell}
    (hws : ∀ c ∈ ws, c.1 < s.outLen.toNat) : (s.writeOut ws).MemoriesWf :=
  ⟨h.prog, h.img, Memory.wf_writeAll h.out ws, h.progInside, h.imgInside, Memory.inside_writeAll h.outInside hws⟩

/-- The command placed by `placeCommand` lies below PROG_LEN. -/
theorem State.placeCommand_pc_lt (s : State) (w : Word) :
    (s.placeCommand w).pc.toNat < (s.placeCommand w).progLen.toNat := by
  have hne : (if s.pc = 0xFFFFFFFF#32 then 0#32 else s.pc).toNat < 4294967295 := by
    split
    · decide
    · rename_i h
      have hlt := s.pc.isLt
      have : s.pc.toNat ≠ 4294967295 := fun he => h (BitVec.eq_of_toNat_eq (by simpa using he))
      omega
  simp only [State.placeCommand]
  generalize (if s.pc = 0xFFFFFFFF#32 then 0#32 else s.pc) = pc at hne ⊢
  split
  · assumption
  · rw [BitVec.toNat_add]
    simp only [BitVec.toNat_ofNat]
    omega

/-- PROG_LEN only grows. -/
theorem State.placeCommand_progLen_ge (s : State) (w : Word) :
    s.progLen.toNat ≤ (s.placeCommand w).progLen.toNat := by
  have h := s.placeCommand_pc_lt w
  simp only [State.placeCommand] at h ⊢
  generalize (if s.pc = 0xFFFFFFFF#32 then 0#32 else s.pc) = pc at h ⊢
  split
  · exact Nat.le_refl _
  · rename_i hn
    rw [if_neg hn] at h
    omega

theorem State.MemoriesWf.placeCommand {s : State} (h : s.MemoriesWf) (w : Word) : (s.placeCommand w).MemoriesWf := by
  refine ⟨Memory.wf_write h.prog _ _, h.img, h.out, ?_, h.imgInside, h.outInside⟩
  refine Memory.inside_write ?_ (s.placeCommand_pc_lt w) w
  rw [Memory.inside_iff]
  intro c hc
  exact Nat.lt_of_lt_of_le (Memory.inside_iff.1 h.progInside c hc) (s.placeCommand_progLen_ge w)

end Sys2Proof.Machine
end

