-- ==== Sys2Proof/Tests/Slice0.lean ====
section
/-! SUPPORT. Tests. The expected values come from 95_test_vectors.md and the examples in the rules, and each test
names its source. After them stand the witnesses: for each statement with hypotheses, states and operands that
meet them, clause by clause at the boundaries. -/

namespace Sys2Proof.Tests

open Sys2Proof Sys2Proof.Machine

/-! ### Helpers -/

/-- The next state of an outcome. -/
def after : Host.Outcome State Fault Refusal → Option State
  | .next t => some t
  | .fault _ => none
  | .refused _ => none

/-- A block whose host has bound a program of one word, an image and an output memory. -/
def bound (word : Word) (img out : List Byte) : State := State.reset.launch ⟨[word], img, out⟩

/-- The same with dimensions, threshold and indexes set. -/
def ready (word : Word) (img out : List Byte) (w h : Half) (t : Byte) (p c : Half) : State :=
  { bound word img out with width := w, height := h, thr := t, page := p, col := c }

/-- The image of V3: one column of eight rows. -/
def stripes : List Byte := [0#8, 255#8, 0#8, 255#8, 0#8, 255#8, 0#8, 255#8]

/-- `img2` of 95_test_vectors, width 3, height 10. -/
def img2 : List Byte :=
  [0#8, 128#8, 255#8, 127#8, 128#8, 129#8, 200#8, 10#8, 128#8, 0#8, 0#8, 255#8, 255#8, 255#8, 255#8,
    128#8, 127#8, 128#8, 1#8, 254#8, 0#8, 130#8, 0#8, 127#8, 255#8, 0#8, 128#8, 0#8, 200#8, 127#8]

/-- Eight bytes `EE`, the launch value of OUT in P2 and P3. -/
def eights : List Byte := List.replicate 8 0xEE#8

/-! ### Well-formedness: an ill-formed line for each check (R90, R91) -/

theorem test_wf_setthr : (Source.setthr 65536).wf = false ∧ (Source.setthr 256).wf = true := by decide
theorem test_wf_setw : (Source.setw 65536).wf = false := by decide
theorem test_wf_seth : (Source.seth 65536).wf = false := by decide
theorem test_wf_setpage : (Source.setpage 65536).wf = false := by decide
theorem test_wf_setcol : (Source.setcol 65536).wf = false := by decide
theorem test_wf_setdim : (Source.setdim 65536 1).wf = false ∧ (Source.setdim 1 65536).wf = false := by decide
theorem test_wf_packpages : (Source.packpages 8193).wf = false ∧ (Source.packpages 8192).wf = true := by decide
theorem test_wf_instr : (Instr.setw 65535#16).wf = true ∧ Instr.endRun.wf = true := by decide

/-! ### Decoding: words written out from R84 and R87 -/

/-- SETTHR 128: op 00000001, rsv 00000000, imm 0000000010000000 (R90 gives 0x01000080). -/
theorem test_decode_setthr : decode 0b00000001000000000000000010000000#32 = .command (.setthr 128#16) := by decide
theorem test_decode_setw : decode 0b00000010000000000000000000000001#32 = .command (.setw 1#16) := by decide
theorem test_decode_seth : decode 0b00000011000000000000000000001000#32 = .command (.seth 8#16) := by decide
theorem test_decode_setpage : decode 0b00000100000000001000000000000001#32 = .command (.setpage 0x8001#16) := by decide
theorem test_decode_setcol : decode 0b00000101000000000000000000000010#32 = .command (.setcol 2#16) := by decide
theorem test_decode_nop : decode 0b00000110000000000000000000000000#32 = .command .nop := by decide
theorem test_decode_packcol : decode 0b00010000000000000000000000000000#32 = .command .packcol := by decide
theorem test_decode_packpage : decode 0b00010001000000000000000000000000#32 = .command .packpage := by decide
theorem test_decode_packimg : decode 0b00010010000000000000000000000000#32 = .command .packimg := by decide
theorem test_decode_end : decode 0b01111111000000000000000000000000#32 = .command .endRun := by decide

/-- T54 to T59: the words of the list are illegal, each on its own ground. -/
theorem test_decode_illegal :
    decode 0x00000000#32 = .illegal .unassignedOpcode ∧ decode 0xFFFFFFFF#32 = .illegal .reservedField ∧
    decode 0x06000001#32 = .illegal .operandNotZero ∧ decode 0x02010003#32 = .illegal .reservedField ∧
    decode 0x13000000#32 = .illegal .unassignedOpcode ∧ decode 0x80000000#32 = .illegal .unassignedOpcode := by decide

/-- R61 and P1: `0x02000001` is the bytes `01 00 00 02`. -/
theorem test_bytes_of_word :
    bytesOfWord 0x02000001#32 = [0x01#8, 0x00#8, 0x00#8, 0x02#8] ∧
    decodeBytes [0x01#8, 0x00#8, 0x00#8, 0x02#8, 0x99#8] = (.command (.setw 1#16), [0x99#8]) ∧
    decodeBytes [0x01#8, 0x00#8, 0x00#8] = (.illegal .truncated, [0x01#8, 0x00#8, 0x00#8]) := by decide

/-- The table's numbering: bit 0 is the least significant bit of the word. -/
theorem test_decode_table_word :
    decodeTableWord 32 0x0300000A = some (.seth 10#16) ∧ decodeTableWord 32 0x13000000 = none ∧
    decodeTableWord 33 0x106000000 = none := by decide

/-! ### The assembler: examples of R90 and R91 -/

theorem test_assemble_class_one :
    assembleLine ['S', 'E', 'T', 'T', 'H', 'R', ' ', '1', '2', '8', ' ', ';', 'x'] = .ok [.setthr 128#16] := by rfl
theorem test_assemble_hexadecimal : assembleLine ['S', 'E', 'T', 'H', ' ', '0', 'x', '0', 'A'] = .ok [.seth 10#16] := by rfl
theorem test_assemble_rejects :
    assembleLine ['S', 'E', 'T', 'W', ' ', '6', '5', '5', '3', '6'] = .error .operandOutOfRange ∧
    assembleLine ['s', 'e', 't', 'w', ' ', '1'] = .error .unknownMnemonic ∧
    assembleLine ['N', 'O', 'P', ' ', '1'] = .error .badOperands := ⟨rfl, rfl, rfl⟩
theorem test_assemble_setdim :
    assembleLine ['S', 'E', 'T', 'D', 'I', 'M', ' ', '3', ',', ' ', '1', '0'] = .ok [.setw 3#16, .seth 10#16] := by rfl
/-- P2: `PACKPAGES 2` is words 2 to 5 of the program. -/
theorem test_assemble_packpages :
    assemble [['P', 'A', 'C', 'K', 'P', 'A', 'G', 'E', 'S', ' ', '2']] =
      .ok [0x04000000#32, 0x11000000#32, 0x04000001#32, 0x11000000#32] := by rfl

/-! ### The commands, one step each -/

/-- T50: `0x010000FF` gives `THR = 0xFF`, `PC = 1`. -/
theorem test_setthr : (after (step (bound 0x010000FF#32 [] []))).map (fun t => (t.thr, t.pc)) = some (0xFF#8, 1#32) := by
  decide
/-- T51: SETTHR 256 gives `STATUS = 0x0E`, `PC = 0`, `THR = 0x80`. -/
theorem test_setthr_config :
    (after (step (bound 0x01000100#32 [] []))).map (fun t => (t.status, t.pc, t.thr)) = some (0x0E#8, 0#32, 0x80#8) := by
  decide
/-- T53. -/
theorem test_setw : (after (step (bound 0x0200FFFF#32 [] []))).map (fun t => (t.width, t.pc)) = some (65535#16, 1#32) := by
  decide
/-- R104's example: SETH 10. -/
theorem test_seth : (after (step (bound 0x0300000A#32 [] []))).map (fun t => (t.height, t.pages)) = some (10#16, 2) := by
  decide
/-- R105's example. -/
theorem test_setpage : (after (step (bound 0x04000001#32 [] []))).map (fun t => (t.page, t.col)) = some (1#16, 0#16) := by
  decide
/-- R106's example. -/
theorem test_setcol : (after (step (bound 0x05000002#32 [] []))).map (fun t => (t.col, t.page)) = some (2#16, 0#16) := by
  decide
/-- R101's example: with `PC = 3`, NOP gives `PC = 4`. -/
theorem test_nop :
    after (exec .nop { bound 0x06000000#32 [] [] with pc := 3#32 }) = some { bound 0x06000000#32 [] [] with pc := 4#32 } := by
  decide
/-- P3, step 6: page 1, column 2, threshold 127 writes `OUT[5] <- 0x03`. -/
theorem test_packcol :
    (after (exec .packcol (ready 0x10000000#32 img2 eights 3#16 10#16 127#8 1#16 2#16))).map (fun t => t.out.toList 8) =
      some [0xEE#8, 0xEE#8, 0xEE#8, 0xEE#8, 0xEE#8, 0x03#8, 0xEE#8, 0xEE#8] := by decide
/-- P3, step 9: threshold 0 in a page of two rows leaves bits 2 to 7 at 0. -/
theorem test_packcol_padding :
    (after (exec .packcol (ready 0x10000000#32 img2 eights 3#16 10#16 0#8 1#16 0#16))).map (fun t => t.out.read 3) =
      some 0x03#8 := by decide
/-- R135's example. -/
theorem test_packpage :
    (after (exec .packpage (ready 0x11000000#32 [100#8, 99#8, 0#8, 200#8, 255#8, 100#8] [0#8, 0#8] 2#16 3#16 100#8 0#16 9#16))).map
      (fun t => t.out.toList 2) = some [0x05#8, 0x06#8] := by decide
/-- P2, step 6: the partial last page. -/
theorem test_packpage_last :
    (after (exec .packpage (ready 0x11000000#32 img2 eights 3#16 10#16 128#8 1#16 0#16))).map (fun t => t.out.toList 8) =
      some [0xEE#8, 0xEE#8, 0xEE#8, 0x01#8, 0x02#8, 0x01#8, 0xEE#8, 0xEE#8] := by decide
/-- V3 and P1, step 4: the source's example. -/
theorem test_packimg :
    (after (step (ready 0x12000000#32 stripes [0x55#8] 1#16 8#16 128#8 0#16 0#16))).map (fun t => (t.out.toList 1, t.pc)) =
      some ([0xAA#8], 1#32) := by decide
/-- T20 and P2b. -/
theorem test_packimg_two_pages :
    (after (exec .packimg (ready 0x12000000#32 img2 eights 3#16 10#16 128#8 7#16 7#16))).map (fun t => t.out.toList 8) =
      some [0xB4#8, 0x53#8, 0x3F#8, 0x01#8, 0x02#8, 0x01#8, 0xEE#8, 0xEE#8] := by decide
/-- R151's example: `PC = 4`, END gives `STATUS = 0x01`, `PC = 4`. -/
theorem test_end :
    (after (exec .endRun { bound 0x7F000000#32 [] [] with pc := 4#32 })).map (fun t => (t.status, t.pc)) =
      some (0x01#8, 4#32) := by decide

/-! ### The sequencer -/

/-- P10: the empty program. -/
theorem test_fetch_fault : (after (step State.reset)).map (fun t => (t.status, t.pc)) = some (0x06#8, 0#32) := by decide
/-- T57: SETW with a non-zero reserved field. -/
theorem test_illegal_fault :
    (after (step (bound 0x02010003#32 [] []))).map (fun t => (t.status, t.pc, t.width)) = some (0x0A#8, 0#32, 0#16) := by
  decide
/-- P16: IMAGE before INDEX. P17: INDEX before OUTBOUND. P8: OUTBOUND, nothing written. -/
theorem test_priority :
    (after (step (ready 0x11000000#32 stripes [0x55#8, 0x55#8] 2#16 8#16 128#8 5#16 0#16))).map (·.status) = some 0x12#8 ∧
    (after (step (ready 0x11000000#32 stripes [] 1#16 8#16 128#8 1#16 0#16))).map (·.status) = some 0x16#8 ∧
    (after (step (ready 0x12000000#32 img2 (List.replicate 5 0xEE#8) 3#16 10#16 128#8 0#16 0#16))).map
      (fun t => (t.status, t.out.toList 5)) = some (0x1A#8, List.replicate 5 0xEE#8) := by decide
/-- A stopped block takes no step (R150). -/
theorem test_stopped : step { State.reset with status := 0x01#8 } = .fault .stopped := by rfl
/-- P1's transactions of PACKIMG: the fetch, eight samples, one packed byte. -/
theorem test_ports :
    (stepEvents (ready 0x12000000#32 stripes [0x55#8] 1#16 8#16 128#8 0#16 0#16)).length = 10 ∧
    outWrites (stepEvents (ready 0x12000000#32 stripes [0x55#8] 1#16 8#16 128#8 0#16 0#16)) = [(0#32, 0xAA#8)] := by decide

/-! ### Layer 0 and the host's side -/

/-- T1 to T10. -/
theorem test_on :
    [on 127#8 128#8, on 128#8 128#8, on 129#8 128#8, on 254#8 255#8, on 255#8 255#8, on 0#8 0#8, on 0#8 1#8, on 255#8 0#8,
      on 200#8 100#8, on 100#8 200#8] = [false, true, true, false, true, true, false, true, true, false] := by decide
/-- T27 to T42. -/
theorem test_page_count :
    [0, 1, 7, 8, 9, 15, 16, 17, 65528, 65529, 65535].map pageCount = [0, 1, 1, 1, 2, 2, 2, 3, 8191, 8192, 8192] := by decide
/-- T28, T32, T35, T37, T41, T42: the mask of the last page. -/
theorem test_vmask :
    [vmask 0 1, vmask 0 5, vmask 0 8, vmask 1 15, vmask 8191 65529, vmask 8191 65535] =
      [0x01#8, 0x1F#8, 0xFF#8, 0x7F#8, 0x01#8, 0x7F#8] := by decide
/-- T14 and T15: height 5, all 0 at threshold 0 and all 127 at threshold 128. -/
theorem test_packbyte :
    packbyte (fun _ _ => 0#8) 5 0#8 0 0 = 0x1F#8 ∧ packbyte (fun _ _ => 127#8) 5 128#8 0 0 = 0x00#8 := by decide
/-- A cell with `V = 0x1F` and threshold 0, whatever the three undriven wires hold (T14). -/
theorem test_cell : cellOutput ⟨0#8, 0x1F#8, fun i => if i.val < 5 then 0#8 else 0xFF#8⟩ = 0x1F#8 := by decide
/-- V2: 255 by 257; and a dimension of 65536. -/
theorem test_header :
    headerEncode 255 257 = some [0xFF#8, 0x00#8, 0x01#8, 0x01#8] ∧ headerEncode 65536 0 = none ∧
    headerEncode (-1) 0 = none := by decide
/-- The transactions of the PACKIMG of V3. -/
def stripesEvents : List BusEvent := stepEvents (ready 0x12000000#32 stripes [0x55#8] 1#16 8#16 128#8 0#16 0#16)

/-- A block at the end of a good run, with the dimensions of V3; `out` is what the host bound and the run wrote. -/
def stripesEnded (out : List Byte) : State :=
  { ready 0x7F000000#32 stripes out 1#16 8#16 128#8 0#16 0#16 with status := 0x01#8 }

/-- V3: the Output Record `01 00 08 00 AA`. -/
theorem test_output_record :
    outputRecord stripesEvents (stripesEnded [0xAA#8]) = some [0x01#8, 0x00#8, 0x08#8, 0x00#8, 0xAA#8] := by decide
/-- R198 and U1: with nothing packed no byte is a result, whatever OUT holds and whether it has room or not. -/
theorem test_nothing_packed :
    hostResult [] (stripesEnded [0xAA#8]) = .good [] ∧ outputRecord [] (stripesEnded [0xAA#8]) = none ∧
    outputRecord [] (stripesEnded []) = none := by decide
/-- R198: of two bytes of OUT the one the PACK command wrote is the result; the host may read both. -/
theorem test_host_results :
    hostResult stripesEvents (stripesEnded [0xAA#8, 0x55#8]) = .good [(0, 0xAA#8)] ∧
    (stripesEnded [0xAA#8, 0x55#8]).hostOut = some [0xAA#8, 0x55#8] := by decide
/-- R64 (b) and R53: of two writes of an address the later counts, and a packed byte of 0 is a result too. -/
theorem test_result_addresses :
    packedBytes [.outWrite 2#32 0x01#8, .imgRead 0#32 7#8, .outWrite 0#32 0x05#8, .outWrite 2#32 0x00#8] =
      [(0, 0x05#8), (2, 0x00#8)] := by decide
/-- P5: after the CONFIG fault the host discards OUT. -/
theorem test_host_discards :
    hostResult stripesEvents { bound 0x01000100#32 [] [0xAA#8] with status := 0x0E#8, pc := 3#32 } = .discard 3#3 3#32 := by
  decide
/-- R193, R197: launch of a program of END alone. -/
theorem test_launch_and_run :
    State.reset.launchAndRun ⟨[0x7F000000#32], [], [0x55#8]⟩ = .good [] := by decide
/-- The registers' widths are the parameters of R8. -/
theorem test_config_widths :
    Byte = BitVec Config.sampleBits ∧ Byte = BitVec Config.thrBits ∧ Half = BitVec Config.dimBits ∧
    Word = BitVec Config.addrBits ∧ Word = BitVec Config.cmdBits ∧ Byte = BitVec Config.pageRows :=
  ⟨rfl, rfl, rfl, rfl, rfl, rfl⟩

/-! ### Witnesses: for each statement with hypotheses, something that meets them -/

/-- One column of eight rows, fit for every pack command; `n` is OUT_LEN. -/
def column (n : Nat) (p c : Half) : State := ready 0x10000000#32 stripes (List.replicate n 0x55#8) 1#16 8#16 128#8 p c

/-- Three columns of ten rows; `n` is OUT_LEN. -/
def block (n : Nat) (p c : Half) : State := ready 0x12000000#32 img2 (List.replicate n 0xEE#8) 3#16 10#16 128#8 p c

/-- A running block with that command at PC. -/
def facing (word : Word) : State := bound word [] []

theorem witness_EncodeOfDecode : decode 0x0200FFFF#32 = .command (.setw 0xFFFF#16) := by decide
theorem witness_IllegalWordsAreTheRest :
    (facing 0x07000000#32).stopped = false ∧ (facing 0x07000000#32).canFetch = true ∧
    (decode (facing 0x07000000#32).fetchWord).isIllegal = true ∧ 255 < (256#16).toNat := by decide
theorem witness_WordsInByteMemoryAreLittleEndian : 0 < [0x02000001#32].length ∧ 3 < 4 := by decide
theorem witness_AssembledWordsAreCommands : assemble [['E', 'N', 'D']] = .ok [0x7F000000#32] := by rfl
theorem witness_SetthrWritesOrRaisesConfig : (255#16).toNat ≤ 255 ∧ 255 < (256#16).toNat := by decide

theorem witness_PackcolDoesItsRule_image :
    { column 1 0#16 0#16 with imgLen := 7#32 }.imgLen.toNat ≠ (column 1 0#16 0#16).width.toNat * (column 1 0#16 0#16).height.toNat ∧
    { column 1 0#16 0#16 with imgLen := 9#32 }.imgLen.toNat ≠ (column 1 0#16 0#16).width.toNat * (column 1 0#16 0#16).height.toNat := by
  decide
theorem witness_PackcolDoesItsRule_index :
    (column 1 1#16 0#16).imageMisfits = false ∧ pageCount (column 1 1#16 0#16).height.toNat ≤ (column 1 1#16 0#16).page.toNat ∧
    (column 1 0#16 1#16).imageMisfits = false ∧ (column 1 0#16 1#16).width.toNat ≤ (column 1 0#16 1#16).col.toNat := by decide
theorem witness_PackcolDoesItsRule_outbound :
    (block 5 1#16 2#16).imageMisfits = false ∧ (block 5 1#16 2#16).page.toNat < pageCount (block 5 1#16 2#16).height.toNat ∧
    (block 5 1#16 2#16).col.toNat < (block 5 1#16 2#16).width.toNat ∧
    (block 5 1#16 2#16).outLen.toNat ≤ (block 5 1#16 2#16).outAddress 1 2 := by decide
theorem witness_PackcolDoesItsRule_completes :
    (block 6 1#16 2#16).imageMisfits = false ∧ (block 6 1#16 2#16).page.toNat < pageCount (block 6 1#16 2#16).height.toNat ∧
    (block 6 1#16 2#16).col.toNat < (block 6 1#16 2#16).width.toNat ∧
    (block 6 1#16 2#16).outAddress 1 2 < (block 6 1#16 2#16).outLen.toNat := by decide
theorem witness_PackpageDoesItsRule_faults :
    { block 6 0#16 0#16 with imgLen := 29#32 }.imageMisfits = true ∧ (block 6 2#16 0#16).imageMisfits = false ∧
    pageCount (block 6 2#16 0#16).height.toNat ≤ (block 6 2#16 0#16).page.toNat ∧
    (block 5 1#16 0#16).imageMisfits = false ∧ (block 5 1#16 0#16).page.toNat < pageCount (block 5 1#16 0#16).height.toNat ∧
    (block 5 1#16 0#16).outLen.toNat < ((block 5 1#16 0#16).page.toNat + 1) * (block 5 1#16 0#16).width.toNat := by decide
theorem witness_PackpageDoesItsRule_completes :
    (block 6 1#16 0#16).imageMisfits = false ∧ (block 6 1#16 0#16).page.toNat < pageCount (block 6 1#16 0#16).height.toNat ∧
    ((block 6 1#16 0#16).page.toNat + 1) * (block 6 1#16 0#16).width.toNat ≤ (block 6 1#16 0#16).outLen.toNat := by decide
theorem witness_PackimgDoesItsRule :
    { block 6 0#16 0#16 with imgLen := 31#32 }.imageMisfits = true ∧
    ((block 5 0#16 0#16).imageMisfits = false ∧
      (block 5 0#16 0#16).outLen.toNat < pageCount (block 5 0#16 0#16).height.toNat * (block 5 0#16 0#16).width.toNat) ∧
    (block 6 0#16 0#16).imageMisfits = false ∧
    pageCount (block 6 0#16 0#16).height.toNat * (block 6 0#16 0#16).width.toNat ≤ (block 6 0#16 0#16).outLen.toNat := by decide

/-- Two states that differ in PC, COL and the contents of OUT, and a write one of them makes. -/
theorem witness_PackWritesArePure :
    (0#32, 0xAA#8) ∈ outWrites (commandEvents .packcol (column 1 0#16 0#16)) ∧
    { column 1 0#16 5#16 with pc := 7#32, out := [] }.thr = (column 1 0#16 0#16).thr ∧
    { column 1 0#16 5#16 with pc := 7#32, out := [] }.img = (column 1 0#16 0#16).img ∧
    { column 1 0#16 5#16 with pc := 7#32, out := [] }.page = (column 1 0#16 0#16).page ∧
    { column 1 0#16 5#16 with pc := 7#32, out := [] } ≠ column 1 0#16 0#16 := by decide
theorem witness_PackpageIsItsColumns :
    (block 6 1#16 0#16).stopped = false ∧ [2, 0, 1].Perm (List.range (block 6 1#16 0#16).width.toNat) ∧
    (block 6 1#16 0#16).imageMisfits = false ∧ (block 6 1#16 0#16).pageBeyond = false ∧
    (block 6 1#16 0#16).pageOverruns = false := by decide
theorem witness_PackimgIsItsPages :
    (block 6 0#16 0#16).stopped = false ∧ (block 6 0#16 0#16).imageMisfits = false ∧
    (block 6 0#16 0#16).imageOverruns = false ∧ (block 5 0#16 0#16).stopped = false ∧
    (block 5 0#16 0#16).imageMisfits = false ∧ (block 5 0#16 0#16).imageOverruns = true := by decide
/-- P4 (width 0, height 5) and P4b (width 4, height 0). -/
theorem witness_EmptyImagePacksToNothing :
    (ready 0x12000000#32 [] [] 0#16 5#16 128#8 0#16 0#16).width = 0#16 ∧
    (ready 0x12000000#32 [] [] 0#16 5#16 128#8 0#16 0#16).imgLen = 0#32 ∧
    (ready 0x12000000#32 [] [] 4#16 0#16 128#8 0#16 0#16).height = 0#16 ∧
    (ready 0x12000000#32 [] [] 4#16 0#16 128#8 0#16 0#16).imgLen = 0#32 := by decide
/-- P11 (a) and (b). -/
theorem witness_ResetStatePacksNothing :
    (bound 0x12000000#32 [] []).AtReset ∧ (bound 0x12000000#32 [] []).imgLen = 0#32 ∧
    (bound 0x12000000#32 [7#8] []).AtReset ∧ (bound 0x12000000#32 [7#8] []).imgLen ≠ 0#32 :=
  ⟨⟨rfl, rfl, rfl, rfl, rfl, rfl, rfl⟩, by decide, ⟨rfl, rfl, rfl, rfl, rfl, rfl, rfl⟩, by decide⟩

theorem witness_BitOfPackedByteIsItsRow :
    (7 < 8 ∧ (packbyte (fun _ _ => 128#8) 8 128#8 0 0).getLsbD 7 = true) ∧
    (5 < 8 ∧ (packbyte (fun _ _ => 128#8) 5 0#8 0 0).getLsbD 5 = false) := by decide
theorem witness_PageCountIsTheCeiling : (1 ≤ 1 ∧ 1 ≤ 8) ∧ pageCount 1 = 1 ∧ (1 ≤ 8 ∧ 8 ≤ 8) ∧ pageCount 8 = 1 := by decide
/-- Height 9: page 0 is not the last, page 1 is, and is partial; the compare bits of page 1 beyond its row are set. -/
theorem witness_PackedByteIsMaskedCompare :
    0 + 1 < pageCount 9 ∧ 1 + 1 = pageCount 9 ∧ 9 % 8 ≠ 0 ∧
    (∀ i < nrows 1 9, (0xFF#8).getLsbD i = on ((fun _ _ => 200#8 : Image) (8 * 1 + i) 0) 128#8) := by decide
theorem witness_PackimageElements : 2 < 3 ∧ 5 < pageCount 10 * 3 := by decide
theorem witness_LawsOfTheFunctions :
    ((after (exec .packimg (block 6 0#16 0#16))).map (·.fault) = some false) ∧
    (∀ i < nrows 1 9, (fun r _ => if r = 0 then 1#8 else 9#8 : Image) (8 * 1 + i) 0 = (fun _ _ => 9#8 : Image) (8 * 1 + i) 0) ∧
    (127#8).toNat ≤ (128#8).toNat ∧ (packbyte (fun _ _ => 128#8) 8 128#8 0 0).getLsbD 0 = true ∧ nrows 1 9 ≤ 1 := by decide
theorem witness_ThresholdExtremes : 0 < nrows 0 5 ∧ 4 < nrows 0 5 ∧ 0 < pageCount 5 := by decide
theorem witness_AnyNumberOfCellsGivesThePage : 1 ≤ 1 ∧ passCount 2 5 = 3 := by decide
theorem witness_CellReadsAreTheRowsThatExist :
    1 < pageCount (block 6 0#16 0#16).height.toNat ∧ 2 < (block 6 0#16 0#16).width.toNat ∧
    29 ∈ (block 6 0#16 0#16).cellReads 1 2 ∧ (block 6 0#16 0#16).imageMisfits = false := by decide
/-- The largest dimensions, at the last row, column and page. -/
theorem witness_NothingWraps :
    65534 < (65535#16).toNat ∧ 8191 < pageCount (65535#16).toNat ∧
    (ready 0#32 [] [] 65535#16 65535#16 0#8 0#16 0#16).imgAddress 65534 65534 = 4294836224 ∧
    (ready 0#32 [] [] 65535#16 65535#16 0#8 0#16 0#16).outAddress 8191 65534 = 536862719 := by decide
theorem witness_AccessesAreAdmitted :
    BusEvent.imgRead 29#32 127#8 ∈ stepEvents (block 6 0#16 0#16) ∧ BusEvent.outWrite 5#32 0x01#8 ∈ stepEvents (block 6 0#16 0#16) ∧
    (block 5 0#16 0#16).fault = false ∧ (after (exec .packimg (block 5 0#16 0#16))).map (·.fault) = some true := by decide
theorem witness_StepWritesWhatItsPortsShow :
    (after (step (block 6 0#16 0#16))).isSome = true ∧ (stepEvents (block 6 0#16 0#16)).length = 37 := by decide
theorem witness_WriteOrderIsUnobservable :
    (column 1 0#16 0#16).imageWrites.reverse.Perm (column 1 0#16 0#16).imageWrites ∧
    (block 6 0#16 0#16).imageWrites.reverse ≠ (block 6 0#16 0#16).imageWrites ∧
    ((column 1 0#16 0#16).pageWrites 0).reverse.Perm ((column 1 0#16 0#16).pageWrites 0) :=
  ⟨List.reverse_perm _, by decide, List.reverse_perm _⟩

theorem witness_FirstFailingTestDecides_sequencer :
    State.reset.stopped = false ∧ State.reset.progLen.toNat ≤ State.reset.pc.toNat ∧
    (facing 0xFFFFFFFF#32).stopped = false ∧ (facing 0xFFFFFFFF#32).pc.toNat < (facing 0xFFFFFFFF#32).progLen.toNat ∧
    (decode (facing 0xFFFFFFFF#32).fetchWord).isIllegal = true ∧
    (facing 0x01000100#32).canFetch = true ∧ decode (facing 0x01000100#32).fetchWord = .command (.setthr 256#16) := by decide
theorem witness_FirstFailingTestDecides_pack :
    decode ({ column 1 0#16 0#16 with imgLen := 7#32 }).fetchWord = .command .packcol ∧
    ({ column 1 0#16 0#16 with imgLen := 7#32 }).imageMisfits = true ∧
    decode (column 1 1#16 0#16).fetchWord = .command .packcol ∧ (column 1 1#16 0#16).pageBeyond = true ∧
    (column 1 1#16 0#16).imageMisfits = false ∧
    decode (block 5 0#16 0#16).fetchWord = .command .packimg ∧ (block 5 0#16 0#16).imageMisfits = false ∧
    (block 5 0#16 0#16).imageOverruns = true ∧ (block 5 0#16 0#16).canFetch = true := by decide
theorem witness_FaultsArePrecise : (after (step State.reset)).map (·.fault) = some true := by decide
theorem witness_StepHasNextUnlessStopped : State.reset.halt = false ∧ State.reset.fault = false := by decide
theorem witness_StepRunsTheDecodedCommand :
    (facing 0x06000000#32).halt = false ∧ (facing 0x06000000#32).fault = false ∧
    (facing 0x06000000#32).pc.toNat < (facing 0x06000000#32).progLen.toNat ∧
    decode ((facing 0x06000000#32).prog.read (facing 0x06000000#32).pc.toNat) = .command .nop := by decide
/-- The placed word runs next after reset, in a stopped block, and where no length covers PC. -/
theorem witness_PlacedWordRunsNext :
    decodeTableWord 32 0x06000000 = some .nop ∧
    (after (step (State.reset.withFetchWord 32 0x06000000))).map (·.pc) = some 1#32 ∧
    (after (step ({ State.reset with status := 0x06#8, pc := 0xFFFFFFFF#32 }.withFetchWord 32 0x06000000))).map
      (fun t => (t.pc, t.status)) = some (1#32, 0x00#8) := by decide
theorem witness_PcCountsCompletedCommands :
    (after (step (facing 0x06000000#32))).map (fun t => (t.stopped, t.pc)) = some (false, 1#32) ∧
    (after (step (facing 0x7F000000#32))).map (fun t => (t.stopped, t.pc)) = some (true, 0#32) := by decide

/-- A state that meets the invariant. -/
theorem witness_inv (word : Word) (img out : List Byte) (hw : (bound word img out).MemoriesWf) :
    (bound word img out).Inv := ⟨.head _, Nat.zero_le _, hw⟩
theorem witness_EndOfRunIsAtPc :
    (facing 0x7F000000#32).Inv ∧ (after (step (facing 0x7F000000#32))).map (·.status) = some 0x01#8 ∧
    (facing 0x01000100#32).Inv ∧ (after (step (facing 0x01000100#32))).map (·.cause) = some 3#3 ∧
    State.reset.Inv ∧ (after (step State.reset)).map (·.cause) = some 1#3 :=
  ⟨witness_inv _ _ _ ⟨by decide, by decide, by decide, by decide, by decide, by decide⟩, by decide,
    witness_inv _ _ _ ⟨by decide, by decide, by decide, by decide, by decide, by decide⟩, by decide,
    ⟨by decide, by decide, ⟨by decide, by decide, by decide, by decide, by decide, by decide⟩⟩, by decide⟩
theorem witness_StatusStaysLegal :
    State.reset.AtReset ∧ State.reset.statusLegal ∧ (after (step State.reset)).isSome = true :=
  ⟨⟨rfl, rfl, rfl, rfl, rfl, rfl, rfl⟩, by decide, by decide⟩
/-- A state that meets the invariant and has memories with entries, and its step. -/
theorem witness_StepKeepsInv :
    (column 1 0#16 0#16).Inv ∧ (after (step (column 1 0#16 0#16))).map (·.out) = some [(0, 0xAA#8)] :=
  ⟨⟨by decide, by decide, ⟨by decide, by decide, by decide, by decide, by decide, by decide⟩⟩, by decide⟩
theorem witness_launch :
    (⟨[0x7F000000#32], stripes, [0x55#8]⟩ : Launch).fits = true := by decide
theorem witness_EachRegisterHasItsWriters :
    (after (exec (.setpage 1#16) State.reset)).map (fun t => (t.page, t.pc)) = some (1#16, 1#32) ∧
    (after (exec .packpage State.reset)).map (fun t => (t.cause, t.pc)) = some (5#3, 0#32) ∧
    (after (exec .endRun State.reset)).map (fun t => (t.halt, t.pc)) = some (true, 0#32) := by decide
theorem witness_FrameOfNonPackingCommands :
    Instr.nop ≠ .packcol ∧ Instr.nop ≠ .packpage ∧ Instr.nop ≠ .packimg ∧ (after (exec .nop State.reset)).isSome = true ∧
    (after (exec (.setthr 255#16) State.reset)).map (·.pc) = some 1#32 ∧
    (after (exec (.setthr 256#16) State.reset)).map (·.pc) = some 0#32 := by decide
theorem witness_FrameOfPackCommands :
    (after (exec .packcol (block 6 1#16 2#16))).isSome = true ∧ (after (exec .packpage (block 6 1#16 2#16))).isSome = true ∧
    (after (exec .packimg (block 5 1#16 2#16))).isSome = true := by decide
theorem witness_ResetSetsTheRegisters :
    0 < (facing 0x7F000000#32).progLen.toNat ∧ decode ((facing 0x7F000000#32).prog.read 0) = .command .endRun := by decide
theorem witness_HostTakesOutOnlyFromGoodRuns :
    ({ State.reset with status := 0x01#8 }).statusLegal ∧ ({ State.reset with status := 0x1A#8 }).statusLegal ∧
    State.reset.statusLegal := ⟨by decide, by decide, by decide⟩
theorem witness_HeaderRoundTrips : (0 : Int) ≤ 65535 ∧ (65535 : Int) ≤ 65535 ∧ (65535 : Int) < 65536 ∧ (-1 : Int) < 0 := by decide
theorem witness_HostTakesOutOnlyFromGoodRuns_results :
    hostResult stripesEvents (stripesEnded [0xAA#8]) = .good [(0, 0xAA#8)] ∧ (stripesEnded [0xAA#8]).statusLegal ∧
    (0#32, 0xAA#8) ∈ outWrites stripesEvents := ⟨by decide, by decide, by decide⟩
/-- One step that writes address 0 of two, and leaves the other. -/
theorem witness_OutHoldsLaunchValuesAndLastWrites :
    outWrites (runEvents 1 (column 2 0#16 0#16)) = [] ++ (0#32, 0xAA#8) :: [] ∧
    (runState 1 (column 2 0#16 0#16)).out.toList 2 = [0xAA#8, 0x55#8] ∧
    (after (Sys2Proof.core.run 1 (column 2 0#16 0#16))).map (·.pc) = some 1#32 := by decide
theorem witness_OutputRecordLayout :
    (stripesEnded [0xAA#8]).endedWell ∧ (stripesEnded [0xAA#8]).outFits 1 8 ∧
    (stripesEnded [0xAA#8]).imageIsPacked stripesEvents = true ∧
    0 < pageCount (stripesEnded [0xAA#8]).height.toNat ∧ 0 < (stripesEnded [0xAA#8]).width.toNat :=
  ⟨rfl, by decide, by decide, by decide, by decide⟩
/-- An empty image: a halted block of no dimensions has the record of four zeros, and OUT of length 0 has room. -/
theorem witness_OutputRecordLayout_run :
    (outputRecord (runEvents 1 (facing 0x7F000000#32)) (runState 1 (facing 0x7F000000#32))) =
      some [0#8, 0#8, 0#8, 0#8] := by decide

end Sys2Proof.Tests
end

/-! ### What a command tests, and what it does when no test fails -/

namespace Sys2Proof.Machine

/-- A number below `2^32` is exact as a word. -/
theorem toNat_word_of_lt {a : Nat} (h : a < 2 ^ 32) : (BitVec.ofNat 32 a).toNat = a := by
  rw [BitVec.toNat_ofNat, Nat.mod_eq_of_lt h]

/-- The tests of a command in their order (60_exceptions R170): CONFIG for SETTHR (40_config R102), the tests of the
PACK commands (41_pack R134 to R136), none for the others. -/
def commandTests : Instr → State → List Test
  | .setthr imm, _ => [⟨decide (255 < imm.toNat), .config⟩]
  | .packcol, s => packcolTests s
  | .packpage, s => packpageTests s
  | .packimg, s => packimgTests s
  | .setw _, _ | .seth _, _ | .setpage _, _ | .setcol _, _ | .nop, _ | .endRun, _ => []

/-- The (page, column) pairs a command packs when no test fails, in the order of its writes. -/
def commandPairs : Instr → State → List (Nat × Nat)
  | .packcol, s => [(s.page.toNat, s.col.toNat)]
  | .packpage, s => (List.range s.width.toNat).map fun c => (s.page.toNat, c)
  | .packimg, s => (List.range s.pages).flatMap fun p => (List.range s.width.toNat).map fun c => (p, c)
  | .setthr _, _ | .setw _, _ | .seth _, _ | .setpage _, _ | .setcol _, _ | .nop, _ | .endRun, _ => []

/-- The writes to OUT a command makes when no test fails. -/
def commandWrites (i : Instr) (s : State) : List Host.Cell := (commandPairs i s).map fun x => s.cellWrite x.1 x.2

/-- What a command other than END does beside advancing PC when no test fails. -/
def commandEffect : Instr → State → State
  | .setthr imm, s => s.setThr (imm.extractLsb' 0 8)
  | .setw imm, s => s.setWidth imm
  | .seth imm, s => s.setHeight imm
  | .setpage imm, s => s.setPage imm
  | .setcol imm, s => s.setCol imm
  | .packcol, s => s.writeOut (commandWrites .packcol s)
  | .packpage, s => s.writeOut (commandWrites .packpage s)
  | .packimg, s => s.writeOut (commandWrites .packimg s)
  | .nop, s | .endRun, s => s

@[simp] theorem commandWrites_packcol (s : State) :
    commandWrites .packcol s = [s.cellWrite s.page.toNat s.col.toNat] := rfl

@[simp] theorem commandWrites_packpage (s : State) : commandWrites .packpage s = s.pageWrites s.page.toNat := by
  simp [commandWrites, commandPairs, State.pageWrites]

@[simp] theorem commandWrites_packimg (s : State) : commandWrites .packimg s = s.imageWrites := by
  simp [commandWrites, commandPairs, State.imageWrites, State.pageWrites, List.map_flatMap, Function.comp_def]

/-! ### A command raises, or it is END, or it has its effect and advances PC -/

theorem exec_setthr_of_le {imm : Half} (h : imm.toNat ≤ 255) (s : State) :
    exec (.setthr imm) s = .next (s.setThr (imm.extractLsb' 0 8)).advance := by
  simp [exec, execSetthr, thresholdOperand, h]

theorem exec_setthr_of_gt {imm : Half} (h : 255 < imm.toNat) (s : State) :
    exec (.setthr imm) s = .next (s.takeFault .config) := by
  simp [exec, execSetthr, thresholdOperand, Nat.not_le.2 h]

theorem exec_of_raised {i : Instr} {s : State} {k : Cause} (h : firstRaised (commandTests i s) = some k) :
    exec i s = .next (s.takeFault k) := by
  cases i with
  | setthr imm =>
    simp only [commandTests, firstRaised_cons, decide_eq_true_eq, firstRaised_nil, Option.ite_none_right_eq_some,
      Option.some.injEq] at h
    obtain ⟨hbig, rfl⟩ := h
    exact exec_setthr_of_gt hbig s
  | packcol => exact guarded_of_raised h
  | packpage => exact guarded_of_raised h
  | packimg => exact guarded_of_raised h
  | setw | seth | setpage | setcol | nop | endRun => cases h

theorem exec_of_passed {i : Instr} {s : State} (h : firstRaised (commandTests i s) = none) (hend : i ≠ .endRun) :
    exec i s = .next (commandEffect i s).advance := by
  cases i with
  | setthr imm =>
    have hsmall : imm.toNat ≤ 255 := by simpa [commandTests, firstRaised_cons] using h
    exact exec_setthr_of_le hsmall s
  | packcol => exact guarded_of_none h
  | packpage =>
    rw [commandEffect, commandWrites_packpage]
    exact guarded_of_none h
  | packimg =>
    rw [commandEffect, commandWrites_packimg]
    exact guarded_of_none h
  | setw | seth | setpage | setcol | nop => rfl
  | endRun => exact absurd rfl hend

/-- What a command with a next state did. -/
theorem exec_cases {i : Instr} {s t : State} (h : exec i s = .next t) :
    (∃ k, firstRaised (commandTests i s) = some k ∧ t = s.takeFault k) ∨
      (i = .endRun ∧ t = s.markHalted) ∨
      (i ≠ .endRun ∧ firstRaised (commandTests i s) = none ∧ t = (commandEffect i s).advance) := by
  cases hr : firstRaised (commandTests i s) with
  | some k =>
    rw [exec_of_raised hr] at h
    exact .inl ⟨k, rfl, (Host.Outcome.next.inj h).symm⟩
  | none =>
    by_cases hend : i = .endRun
    · subst hend
      exact .inr (.inl ⟨rfl, (Host.Outcome.next.inj h).symm⟩)
    · rw [exec_of_passed hr hend] at h
      exact .inr (.inr ⟨hend, rfl, (Host.Outcome.next.inj h).symm⟩)

/-- What a step with a next state did: it took a fault, or ran END, or a command had its effect. -/
theorem step_effect_cases {s t : State} (h : step s = .next t) :
    s.stopped = false ∧
      ((∃ k, t = s.takeFault k) ∨ t = s.markHalted ∨
        (s.canFetch = true ∧ ∃ i, firstRaised (commandTests i s) = none ∧ t = (commandEffect i s).advance)) := by
  obtain ⟨hrun, ⟨-, rfl⟩ | ⟨-, -, rfl⟩ | ⟨hfetch, i, -, hexec⟩⟩ := step_cases h
  · exact ⟨hrun, .inl ⟨_, rfl⟩⟩
  · exact ⟨hrun, .inl ⟨_, rfl⟩⟩
  · obtain ⟨k, -, ht⟩ | ⟨-, ht⟩ | ⟨-, hpass, ht⟩ := exec_cases hexec
    · exact ⟨hrun, .inl ⟨k, ht⟩⟩
    · exact ⟨hrun, .inr (.inl ht)⟩
    · exact ⟨hrun, .inr (.inr ⟨hfetch, i, hpass, ht⟩)⟩

/-! ### The fields of the effect -/

@[simp] theorem commandEffect_pc (i : Instr) (s : State) : (commandEffect i s).pc = s.pc := by cases i <;> rfl
@[simp] theorem commandEffect_status (i : Instr) (s : State) : (commandEffect i s).status = s.status := by cases i <;> rfl
@[simp] theorem commandEffect_prog (i : Instr) (s : State) : (commandEffect i s).prog = s.prog := by cases i <;> rfl
@[simp] theorem commandEffect_progLen (i : Instr) (s : State) : (commandEffect i s).progLen = s.progLen := by
  cases i <;> rfl
@[simp] theorem commandEffect_img (i : Instr) (s : State) : (commandEffect i s).img = s.img := by cases i <;> rfl
@[simp] theorem commandEffect_imgLen (i : Instr) (s : State) : (commandEffect i s).imgLen = s.imgLen := by
  cases i <;> rfl
@[simp] theorem commandEffect_outLen (i : Instr) (s : State) : (commandEffect i s).outLen = s.outLen := by
  cases i <;> rfl

@[simp] theorem commandEffect_out (i : Instr) (s : State) :
    (commandEffect i s).out = s.out.writeAll (commandWrites i s) := by
  cases i <;> rfl

theorem commandEffect_page {i : Instr} (h : ∀ imm, i ≠ .setpage imm) (s : State) : (commandEffect i s).page = s.page := by
  cases i with
  | setpage imm => exact absurd rfl (h imm)
  | _ => rfl

theorem commandEffect_col {i : Instr} (h : ∀ imm, i ≠ .setcol imm) (s : State) : (commandEffect i s).col = s.col := by
  cases i with
  | setcol imm => exact absurd rfl (h imm)
  | _ => rfl

theorem commandEffect_thr {i : Instr} (h : ∀ imm, i ≠ .setthr imm) (s : State) : (commandEffect i s).thr = s.thr := by
  cases i with
  | setthr imm => exact absurd rfl (h imm)
  | _ => rfl

theorem commandEffect_width {i : Instr} (h : ∀ imm, i ≠ .setw imm) (s : State) : (commandEffect i s).width = s.width := by
  cases i with
  | setw imm => exact absurd rfl (h imm)
  | _ => rfl

theorem commandEffect_height {i : Instr} (h : ∀ imm, i ≠ .seth imm) (s : State) :
    (commandEffect i s).height = s.height := by
  cases i with
  | seth imm => exact absurd rfl (h imm)
  | _ => rfl

/-- Only the PACK commands write OUT. -/
theorem commandWrites_of_notPack {i : Instr} (hcol : i ≠ .packcol) (hpage : i ≠ .packpage) (himg : i ≠ .packimg)
    (s : State) : commandWrites i s = [] := by
  cases i with
  | packcol => exact absurd rfl hcol
  | packpage => exact absurd rfl hpage
  | packimg => exact absurd rfl himg
  | _ => rfl

/-! ### The pairs of a PACK command none of whose tests fails -/

/-- A (page, column) pair that the tests of a PACK command let through. -/
structure PairAdmitted (s : State) (p c : Nat) : Prop where
  image : s.imgLen.toNat = s.width.toNat * s.height.toNat
  page : p < s.pages
  col : c < s.width.toNat
  out : s.outAddress p c < s.outLen.toNat

theorem packcolTests_passed {s : State} (h : firstRaised (packcolTests s) = none) :
    PairAdmitted s s.page.toNat s.col.toNat := by
  simp only [firstRaised_eq_none_iff, packcolTests, List.forall_mem_cons, State.imageMisfits, State.pageBeyond,
    State.colBeyond, State.colOverruns, Bool.or_eq_false_iff, decide_eq_false_iff_not, not_le, ne_eq, not_not] at h
  obtain ⟨himg, ⟨hp, hc⟩, hout, -⟩ := h
  exact ⟨himg, hp, hc, hout⟩

theorem packpageTests_passed {s : State} (h : firstRaised (packpageTests s) = none) {c : Nat}
    (hc : c < s.width.toNat) : PairAdmitted s s.page.toNat c := by
  simp only [firstRaised_eq_none_iff, packpageTests, List.forall_mem_cons, State.imageMisfits, State.pageBeyond,
    State.pageOverruns, decide_eq_false_iff_not, not_le, not_lt, ne_eq, not_not] at h
  obtain ⟨himg, hp, hout, -⟩ := h
  exact ⟨himg, hp, hc, (address_lt (Nat.lt_succ_self _) hc).trans_le hout⟩

theorem packimgTests_passed {s : State} (h : firstRaised (packimgTests s) = none) {p c : Nat} (hp : p < s.pages)
    (hc : c < s.width.toNat) : PairAdmitted s p c := by
  simp only [firstRaised_eq_none_iff, packimgTests, List.forall_mem_cons, State.imageMisfits, State.imageOverruns,
    decide_eq_false_iff_not, not_lt, ne_eq, not_not] at h
  obtain ⟨himg, hout, -⟩ := h
  exact ⟨himg, hp, hc, (address_lt hp hc).trans_le hout⟩

/-- If no test fails, every pair the command packs exists and has its place in OUT, and IMG is the whole image. -/
theorem commandPairs_admitted {i : Instr} {s : State} (h : firstRaised (commandTests i s) = none) {p c : Nat}
    (hx : (p, c) ∈ commandPairs i s) : PairAdmitted s p c := by
  cases i with
  | packcol =>
    simp only [commandPairs, List.mem_singleton, Prod.mk.injEq] at hx
    obtain ⟨rfl, rfl⟩ := hx
    exact packcolTests_passed h
  | packpage =>
    simp only [commandPairs, List.mem_map, List.mem_range, Prod.mk.injEq] at hx
    obtain ⟨c, hc, rfl, rfl⟩ := hx
    exact packpageTests_passed h hc
  | packimg =>
    simp only [commandPairs, List.mem_flatMap, List.mem_map, List.mem_range, Prod.mk.injEq] at hx
    obtain ⟨p, hp, c, hc, rfl, rfl⟩ := hx
    exact packimgTests_passed h hp hc
  | setthr | setw | seth | setpage | setcol | nop | endRun => cases hx

/-- The samples of a pair that the tests let through lie inside IMG. -/
theorem PairAdmitted.read_lt {s : State} {p c a : Nat} (h : PairAdmitted s p c) (ha : a ∈ s.cellReads p c) :
    a < s.imgLen.toNat := by
  simp only [State.cellReads, List.mem_map, List.mem_filter, decide_eq_true_eq] at ha
  obtain ⟨i, ⟨-, hrow⟩, rfl⟩ := ha
  rw [h.image, Nat.mul_comm s.width.toNat]
  exact address_lt hrow h.col

theorem mem_commandWrites {i : Instr} {s : State} {x : Host.Cell} :
    x ∈ commandWrites i s ↔ ∃ p c, (p, c) ∈ commandPairs i s ∧ s.cellWrite p c = x := by
  simp [commandWrites]

theorem commandWrites_lt_outLen {i : Instr} {s : State} (h : firstRaised (commandTests i s) = none) :
    ∀ x ∈ commandWrites i s, x.1 < s.outLen.toNat := by
  intro x hx
  obtain ⟨p, c, hpc, rfl⟩ := mem_commandWrites.1 hx
  exact (commandPairs_admitted h hpc).out

/-- The writes of a command go to different addresses. -/
theorem nodup_commandWrites (i : Instr) (s : State) : ((commandWrites i s).map Prod.fst).Nodup := by
  cases i with
  | packcol => exact List.nodup_singleton _
  | packpage => rw [commandWrites_packpage]; exact nodup_pageWrites s _
  | packimg => rw [commandWrites_packimg]; exact nodup_imageWrites s
  | setthr | setw | seth | setpage | setcol | nop | endRun => exact List.nodup_nil

end Sys2Proof.Machine

/-! ### STATUS and PC: the values they take -/

namespace Sys2Proof.Machine

/-- STATUS is its four fields (10_state R27). -/
theorem State.status_eq_fields (s : State) :
    s.status = s.reserved ++ s.cause ++ BitVec.ofBool s.fault ++ BitVec.ofBool s.halt := by
  apply BitVec.eq_of_getLsbD_eq
  intro i hi
  simp only [State.reserved, State.cause, State.fault, State.halt, BitVec.getLsbD_append, BitVec.getLsbD_ofBool,
    BitVec.getLsbD_extractLsb']
  interval_cases i <;> rfl

/-- The eight values are those whose fields R28 allows. -/
theorem fields_mem_legalStatuses_iff : ∀ (halt fault : Bool) (cause reserved : BitVec 3),
    reserved ++ cause ++ BitVec.ofBool fault ++ BitVec.ofBool halt ∈ legalStatuses ↔
      ¬ (halt = true ∧ fault = true) ∧ (cause = 0#3 ↔ fault = false) ∧ cause ≠ 7#3 ∧ reserved = 0#3 := by
  decide

theorem State.statusLegal_iff (s : State) :
    s.statusLegal ↔
      ¬ (s.halt = true ∧ s.fault = true) ∧ (s.cause = 0#3 ↔ s.fault = false) ∧ s.cause ≠ 7#3 ∧ s.reserved = 0#3 := by
  rw [State.statusLegal, s.status_eq_fields]
  exact fields_mem_legalStatuses_iff ..

/-- A running block with a legal STATUS has STATUS 0x00. -/
theorem State.status_eq_zero_of_running {s : State} (hlegal : s.statusLegal) (hrun : s.stopped = false) :
    s.status = 0x00#8 := by
  have hvalues : ∀ b ∈ legalStatuses, (b.getLsbD 0 || b.getLsbD 1) = false → b = 0x00#8 := by decide
  exact hvalues s.status hlegal hrun

/-- From STATUS 0x00 fault entry gives one of the six faulted values. -/
theorem statusFaulted_zero_legal (k : Cause) : statusFaulted k 0x00#8 ∈ legalStatuses := by
  cases k <;> decide

/-- From STATUS 0x00 END gives 0x01. -/
theorem statusHalted_zero_legal : statusHalted 0x00#8 ∈ legalStatuses := by decide

theorem step_statusLegal {s t : State} (hlegal : s.statusLegal) (h : step s = .next t) : t.statusLegal := by
  obtain ⟨hrun, hcases⟩ := step_effect_cases h
  have hzero : s.status = 0x00#8 := State.status_eq_zero_of_running hlegal hrun
  obtain ⟨k, rfl⟩ | rfl | ⟨-, i, -, rfl⟩ := hcases
  · rw [State.statusLegal, State.takeFault_status, hzero]
    exact statusFaulted_zero_legal k
  · rw [State.statusLegal, State.markHalted_status, hzero]
    exact statusHalted_zero_legal
  · rw [State.statusLegal, State.advance_status, commandEffect_status]
    exact hlegal

/-- Below PROG_LEN, PC + 1 does not wrap and is at most PROG_LEN (R23). -/
theorem State.toNat_pc_add_one {s : State} (h : s.canFetch = true) :
    (s.pc + 1#32).toNat = s.pc.toNat + 1 ∧ s.pc.toNat + 1 ≤ s.progLen.toNat := by
  have hlt : s.pc.toNat < s.progLen.toNat := by simpa [State.canFetch] using h
  have hlen := s.progLen.isLt
  rw [BitVec.toNat_add, BitVec.toNat_ofNat]
  omega

theorem State.stopped_of_status_eq {s t : State} (h : t.status = s.status) : t.stopped = s.stopped := by
  simp only [State.stopped, State.halt, State.fault, h]

/-! ### The memories under a step -/

/-- The memories are in order where they are those of a state in which they are. -/
theorem State.MemoriesWf.of_same {s t : State} (h : s.MemoriesWf) (hl : SameLaunch s t) (hout : t.out = s.out) :
    t.MemoriesWf := by
  obtain ⟨hprog, hprogLen, himg, himgLen, houtLen⟩ := hl
  constructor <;> simp only [hprog, hprogLen, himg, himgLen, houtLen, hout]
  exacts [h.prog, h.img, h.out, h.progInside, h.imgInside, h.outInside]

theorem sameLaunch_commandEffect (i : Instr) (s : State) : SameLaunch s (commandEffect i s).advance := by
  constructor <;> simp

theorem exec_sameLaunch {i : Instr} {s t : State} (h : exec i s = .next t) : SameLaunch s t := by
  obtain ⟨k, -, rfl⟩ | ⟨-, rfl⟩ | ⟨-, -, rfl⟩ := exec_cases h
  · exact ⟨rfl, rfl, rfl, rfl, rfl⟩
  · exact ⟨rfl, rfl, rfl, rfl, rfl⟩
  · exact sameLaunch_commandEffect i s

theorem step_memoriesWf {s t : State} (hwf : s.MemoriesWf) (h : step s = .next t) : t.MemoriesWf := by
  obtain ⟨-, ⟨k, rfl⟩ | rfl | ⟨-, i, hpass, rfl⟩⟩ := step_effect_cases h
  · exact hwf.of_same ⟨rfl, rfl, rfl, rfl, rfl⟩ rfl
  · exact hwf.of_same ⟨rfl, rfl, rfl, rfl, rfl⟩ rfl
  · have hwritten : (s.writeOut (commandWrites i s)).MemoriesWf := hwf.writeOut (commandWrites_lt_outLen hpass)
    refine hwritten.of_same ?_ (by simp)
    constructor <;> simp

theorem step_pc_le_progLen {s t : State} (hpc : s.pc.toNat ≤ s.progLen.toNat) (h : step s = .next t) :
    t.pc.toNat ≤ t.progLen.toNat := by
  obtain ⟨-, ⟨k, rfl⟩ | rfl | ⟨hfetch, i, -, rfl⟩⟩ := step_effect_cases h
  · exact hpc
  · exact hpc
  · obtain ⟨hadd, hle⟩ := State.toNat_pc_add_one hfetch
    simpa [hadd] using hle

/-! ### The obligations on STATUS, PC, the invariant and reset -/

/-- Settles O43: a step starts from STATUS 0x00, and END, a fault or a completed command leaves a legal value. -/
theorem statusStaysLegal : Obligations.StatusStaysLegal := by
  unfold Obligations.StatusStaysLegal
  refine ⟨State.statusLegal_iff, fun s hreset => ?_, fun s t => step_statusLegal⟩
  rw [State.statusLegal, hreset.status]
  decide

/-- Settles O44, one lemma for each part of the invariant. -/
theorem stepKeepsInv : Obligations.StepKeepsInv := by
  unfold Obligations.StepKeepsInv
  intro s t ⟨hstatus, hpc, hwf⟩ h
  exact ⟨step_statusLegal hstatus h, step_pc_le_progLen hpc h, step_memoriesWf hwf h⟩

/-- Settles O40: END and a fault stop the block where it is; every other command found PC below PROG_LEN. -/
theorem pcCountsCompletedCommands : Obligations.PcCountsCompletedCommands := by
  unfold Obligations.PcCountsCompletedCommands
  intro s t h
  obtain ⟨hrun, ⟨k, rfl⟩ | rfl | ⟨hfetch, i, -, rfl⟩⟩ := step_effect_cases h
  · exact .inl ⟨State.takeFault_stopped k s, rfl⟩
  · exact .inl ⟨State.markHalted_stopped s, rfl⟩
  · obtain ⟨hadd, hle⟩ := State.toNat_pc_add_one hfetch
    refine .inr ⟨?_, ?_, ?_⟩
    · rw [← hrun]
      exact State.stopped_of_status_eq (commandEffect_status i s)
    · rw [State.advance_pc, commandEffect_pc, hadd]
    · rw [State.advance_pc, commandEffect_pc, hadd]
      exact hle

theorem launch_memoriesWf (s : State) {l : Launch} (h : l.fits = true) : (s.launch l).MemoriesWf := by
  simp only [Launch.fits, Bool.and_eq_true, decide_eq_true_eq] at h
  obtain ⟨⟨hprog, himg⟩, hout⟩ := h
  exact ⟨Memory.wf_ofList _, Memory.wf_ofList _, Memory.wf_ofList _,
    Memory.inside_ofList (toNat_word_of_lt hprog).ge, Memory.inside_ofList (toNat_word_of_lt himg).ge,
    Memory.inside_ofList (toNat_word_of_lt hout).ge⟩

/-- Settles O45: both states have STATUS 0x00, PC 0 and memories made from lists of their lengths. -/
theorem resetAndLaunchMeetInv : Obligations.ResetAndLaunchMeetInv := by
  unfold Obligations.ResetAndLaunchMeetInv
  exact ⟨⟨.head _, Nat.zero_le _, State.reset_memoriesWf⟩, fun s l hfits =>
    ⟨.head _, Nat.zero_le _, launch_memoriesWf s hfits⟩⟩

theorem applyReset_stopped (s : State) : s.applyReset.stopped = false := by
  simp [State.stopped, State.halt, State.fault]

/-- Settles O49: after reset PC is 0, so the first fetch reads `PROG[0]`. -/
theorem resetSetsTheRegisters : Obligations.ResetSetsTheRegisters := by
  unfold Obligations.ResetSetsTheRegisters
  refine ⟨⟨rfl, rfl, rfl, rfl, rfl, rfl, rfl⟩, fun s => ⟨⟨rfl, rfl, rfl, rfl, rfl, rfl, rfl⟩, ⟨rfl, rfl, rfl, rfl, rfl⟩,
    rfl, rfl, applyReset_stopped s, fun i hlen hdecode => ?_⟩⟩
  have hfetch : s.applyReset.canFetch = true := by simpa [State.canFetch] using hlen
  exact step_of_command (applyReset_stopped s) hfetch hdecode

end Sys2Proof.Machine

/-! ### The transactions of a step -/

namespace Sys2Proof.Machine

@[simp] theorem unlessRaised_nil (tests : List Test) : unlessRaised tests [] = [] := by
  unfold unlessRaised
  split <;> rfl

/-- The transactions of a command are those of its pairs, and none where a test fails. -/
theorem commandEvents_eq (i : Instr) (s : State) :
    commandEvents i s =
      unlessRaised (commandTests i s) ((commandPairs i s).flatMap fun x => s.cellEvents x.1 x.2) := by
  cases i with
  | packcol => simp [commandEvents, commandTests, commandPairs]
  | packpage => simp [commandEvents, commandTests, commandPairs, State.pageEvents, List.flatMap_map]
  | packimg =>
    simp [commandEvents, commandTests, commandPairs, State.imageEvents, State.pageEvents, List.flatMap_assoc,
      List.flatMap_map]
  | setthr | setw | seth | setpage | setcol | nop | endRun => simp [commandEvents, commandPairs]

theorem commandEvents_of_raised {i : Instr} {s : State} {k : Cause} (h : firstRaised (commandTests i s) = some k) :
    commandEvents i s = [] := by
  rw [commandEvents_eq, unlessRaised, h]

theorem commandEvents_of_passed {i : Instr} {s : State} (h : firstRaised (commandTests i s) = none) :
    commandEvents i s = (commandPairs i s).flatMap fun x => s.cellEvents x.1 x.2 := by
  rw [commandEvents_eq, unlessRaised, h]

/-- A transaction of a command belongs to a pair that the tests let through: a sample read, or the write. -/
theorem mem_commandEvents {i : Instr} {s : State} {e : BusEvent} (h : e ∈ commandEvents i s) :
    firstRaised (commandTests i s) = none ∧ ∃ p c, (p, c) ∈ commandPairs i s ∧
      ((∃ a ∈ s.cellReads p c, e = .imgRead (BitVec.ofNat 32 a) (s.img.read a)) ∨
        e = .outWrite (BitVec.ofNat 32 (s.cellWrite p c).1) (s.cellWrite p c).2) := by
  cases hr : firstRaised (commandTests i s) with
  | some k =>
    rw [commandEvents_of_raised hr] at h
    cases h
  | none =>
    rw [commandEvents_of_passed hr, List.mem_flatMap] at h
    obtain ⟨⟨p, c⟩, hpc, he⟩ := h
    simp only [State.cellEvents, List.mem_append, List.mem_map, List.mem_singleton, eq_comm (b := e)] at he
    exact ⟨rfl, p, c, hpc, he⟩

/-! ### The packed-byte writes among the transactions -/

theorem outWrites_flatMap {α : Type} (l : List α) (f : α → List BusEvent) :
    outWrites (l.flatMap f) = l.flatMap fun x => outWrites (f x) := by
  induction l with
  | nil => rfl
  | cons x l ih => rw [List.flatMap_cons, outWrites_append, ih, List.flatMap_cons]

theorem outWrites_map_imgRead {α : Type} (l : List α) (a : α → Word) (b : α → Byte) :
    outWrites (l.map fun x => .imgRead (a x) (b x)) = [] := by
  induction l with
  | nil => rfl
  | cons x l ih => exact ih

@[simp] theorem outWrites_cellEvents (s : State) (p c : Nat) :
    outWrites (s.cellEvents p c) = [(BitVec.ofNat 32 (s.cellWrite p c).1, (s.cellWrite p c).2)] := by
  rw [State.cellEvents, outWrites_append, outWrites_map_imgRead]
  rfl

theorem outWrites_commandEvents {i : Instr} {s : State} (h : firstRaised (commandTests i s) = none) :
    outWrites (commandEvents i s) = (commandWrites i s).map fun x => (BitVec.ofNat 32 x.1, x.2) := by
  rw [commandEvents_of_passed h, outWrites_flatMap, commandWrites, List.map_map]
  simp only [outWrites_cellEvents]
  exact List.map_eq_flatMap.symm

/-- On the ports the addresses of a command's writes are exact: none reaches `2^32`. -/
theorem outWrites_commandEvents_toNat {i : Instr} {s : State} (h : firstRaised (commandTests i s) = none) :
    (outWrites (commandEvents i s)).map (fun x => (x.1.toNat, x.2)) = commandWrites i s := by
  rw [outWrites_commandEvents h, List.map_map]
  have hexact : ∀ x ∈ commandWrites i s, ((BitVec.ofNat 32 x.1).toNat, x.2) = x := fun x hx => by
    rw [toNat_word_of_lt ((commandWrites_lt_outLen h x hx).trans s.outLen.isLt)]
  exact (List.map_congr_left hexact).trans (List.map_id _)

/-! ### OUT after a command -/

theorem exec_out_of_passed {i : Instr} {s t : State} (h : firstRaised (commandTests i s) = none)
    (hexec : exec i s = .next t) : t.out = s.out.writeAll (commandWrites i s) := by
  obtain ⟨k, hr, -⟩ | ⟨rfl, rfl⟩ | ⟨-, -, rfl⟩ := exec_cases hexec
  · rw [h] at hr
    cases hr
  · rfl
  · simp

/-- OUT after a command is OUT before it with the packed-byte writes of the command's transactions. -/
theorem exec_out_eq_events {i : Instr} {s t : State} (hexec : exec i s = .next t) :
    t.out = s.out.writeAll ((outWrites (commandEvents i s)).map fun x => (x.1.toNat, x.2)) := by
  cases hr : firstRaised (commandTests i s) with
  | some k =>
    rw [exec_of_raised hr] at hexec
    obtain rfl := Host.Outcome.next.inj hexec
    rw [commandEvents_of_raised hr]
    rfl
  | none => rw [outWrites_commandEvents_toNat hr, exec_out_of_passed hr hexec]

/-! ### The transactions of a step -/

theorem stepEvents_of_noFetch {s : State} (h : s.stopped = false) (hf : s.canFetch = false) : stepEvents s = [] := by
  simp [stepEvents, sequence, h, hf]

theorem stepEvents_of_illegal {s : State} (h : s.stopped = false) (hf : s.canFetch = true) {why : IllegalWord}
    (hd : decode s.fetchWord = .illegal why) : stepEvents s = [.progFetch s.pc s.fetchWord] := by
  simp [stepEvents, sequence, h, hf, hd]

theorem stepEvents_of_command {s : State} (h : s.stopped = false) (hf : s.canFetch = true) {i : Instr}
    (hd : decode s.fetchWord = .command i) : stepEvents s = .progFetch s.pc s.fetchWord :: commandEvents i s := by
  simp [stepEvents, sequence, h, hf, hd]

/-- Settles O31: a FETCH or ILLEGAL fault writes nothing; a command's transactions are those of its pairs, whose
addresses lie below the lengths and so are exact on the ports. -/
theorem stepWritesWhatItsPortsShow : Obligations.StepWritesWhatItsPortsShow := by
  unfold Obligations.StepWritesWhatItsPortsShow
  intro s t h
  obtain ⟨hrun, ⟨hf, rfl⟩ | ⟨hf, ⟨why, hd⟩, rfl⟩ | ⟨hf, i, hd, hexec⟩⟩ := step_cases h
  · simp [stepEvents_of_noFetch hrun hf, outWrites]
  · simp [stepEvents_of_illegal hrun hf hd, outWrites, State.fetchWord]
  · rw [stepEvents_of_command hrun hf hd]
    refine ⟨exec_out_eq_events hexec, fun e he => ?_⟩
    rcases List.mem_cons.1 he with rfl | he
    · exact ⟨rfl, rfl⟩
    · obtain ⟨hpass, p, c, hpc, ⟨a, ha, rfl⟩ | rfl⟩ := mem_commandEvents he
      · have hlt : a < s.imgLen.toNat := (commandPairs_admitted hpass hpc).read_lt ha
        show s.img.read a = s.img.read (BitVec.ofNat 32 a).toNat
        rw [toNat_word_of_lt (hlt.trans s.imgLen.isLt)]
      · have hlt : (s.cellWrite p c).1 < s.outLen.toNat := (commandPairs_admitted hpass hpc).out
        show t.out.read (BitVec.ofNat 32 (s.cellWrite p c).1).toNat = (s.cellWrite p c).2
        rw [toNat_word_of_lt (hlt.trans s.outLen.isLt), exec_out_of_passed hpass hexec]
        exact Memory.read_writeAll_mem (nodup_commandWrites i s) (mem_commandWrites.2 ⟨p, c, hpc, rfl⟩) s.out

end Sys2Proof.Machine

/-! ### What each command changes and what it leaves unchanged -/

namespace Sys2Proof.Machine

theorem State.halt_of_status_eq {s t : State} (h : t.status = s.status) : t.halt = s.halt := by
  rw [State.halt, h, State.halt]

theorem State.fault_of_status_eq {s t : State} (h : t.status = s.status) : t.fault = s.fault := by
  rw [State.fault, h, State.fault]

theorem State.cause_of_status_eq {s t : State} (h : t.status = s.status) : t.cause = s.cause := by
  rw [State.cause, h, State.cause]

/-- Fault entry keeps HALT (60_exceptions R171). -/
@[simp] theorem State.takeFault_halt (k : Cause) (s : State) : (s.takeFault k).halt = s.halt := by
  cases k <;> simp [State.halt, statusFaulted, Cause.code]

/-- END keeps FAULT (42_control R151). -/
@[simp] theorem State.markHalted_fault (s : State) : s.markHalted.fault = s.fault := by
  simp [State.fault, statusHalted]

/-- END keeps CAUSE (42_control R151). -/
@[simp] theorem State.markHalted_cause (s : State) : s.markHalted.cause = s.cause := by
  apply BitVec.eq_of_getLsbD_eq
  intro i hi
  simp [State.cause, statusHalted]

/-- Settles O46: a fault changes STATUS alone, END sets HALT alone, and the effect of every other command is on its
own register or on OUT. -/
theorem eachRegisterHasItsWriters : Obligations.EachRegisterHasItsWriters := by
  unfold Obligations.EachRegisterHasItsWriters
  intro i s t h
  refine ⟨exec_sameLaunch h, ?_⟩
  obtain ⟨k, -, rfl⟩ | ⟨rfl, rfl⟩ | ⟨hend, -, rfl⟩ := exec_cases h
  · exact ⟨.inr ⟨rfl, .inr ⟨k, rfl⟩⟩, absurd rfl, absurd rfl, absurd rfl, absurd rfl, absurd rfl,
      absurd (State.takeFault_halt k s), fun _ => ⟨k, rfl⟩, absurd rfl⟩
  · exact ⟨.inr ⟨rfl, .inl rfl⟩, absurd rfl, absurd rfl, absurd rfl, absurd rfl, absurd rfl, fun _ => rfl,
      fun hne => absurd hne (by simp), absurd rfl⟩
  · have hstatus : (commandEffect i s).advance.status = s.status := commandEffect_status i s
    have hfault := State.fault_of_status_eq hstatus
    have hcause := State.cause_of_status_eq hstatus
    refine ⟨.inl ⟨by simp, hend, hfault, hcause⟩, ?_, ?_, ?_, ?_, ?_, ?_, ?_, ?_⟩
    · exact fun hne => by_contra fun hi => hne (commandEffect_page (not_exists.1 hi) s)
    · exact fun hne => by_contra fun hi => hne (commandEffect_col (not_exists.1 hi) s)
    · exact fun hne => by_contra fun hi => hne (commandEffect_thr (not_exists.1 hi) s)
    · exact fun hne => by_contra fun hi => hne (commandEffect_width (not_exists.1 hi) s)
    · exact fun hne => by_contra fun hi => hne (commandEffect_height (not_exists.1 hi) s)
    · exact fun hne => absurd (State.halt_of_status_eq hstatus) hne
    · exact fun hne => absurd hne (by simp [hfault, hcause])
    · intro hne
      by_contra hi
      simp only [not_or] at hi
      obtain ⟨hcol, hpage, himg⟩ := hi
      exact hne (by simp [commandWrites_of_notPack hcol hpage himg])

/-- Settles O47: SETTHR by its two cases, the other commands as they are defined. -/
theorem frameOfNonPackingCommands : Obligations.FrameOfNonPackingCommands := by
  unfold Obligations.FrameOfNonPackingCommands
  intro i s t hcol hpage himg h
  refine ⟨exec_sameLaunch h, ?_⟩
  cases i with
  | packcol => exact absurd rfl hcol
  | packpage => exact absurd rfl hpage
  | packimg => exact absurd rfl himg
  | setthr imm =>
    rcases Nat.lt_or_ge 255 imm.toNat with himm | himm
    · rw [exec_setthr_of_gt himm] at h
      obtain rfl := Host.Outcome.next.inj h
      simp [Nat.not_le.2 himm]
    · rw [exec_setthr_of_le himm] at h
      obtain rfl := Host.Outcome.next.inj h
      simp [himm]
  | setw | seth | setpage | setcol | nop | endRun =>
    obtain rfl := Host.Outcome.next.inj h
    exact ⟨fun _ => rfl, rfl, rfl, rfl, rfl, rfl, rfl, rfl⟩

/-! ### The PACK commands -/

theorem commandEffect_of_pack {i : Instr} (h : i = .packcol ∨ i = .packpage ∨ i = .packimg) (s : State) :
    commandEffect i s = s.writeOut (commandWrites i s) := by
  rcases h with rfl | rfl | rfl <;> rfl

/-- A PACK command takes a fault, or makes its writes and advances PC. -/
theorem exec_pack_cases {i : Instr} {s t : State} (hi : i = .packcol ∨ i = .packpage ∨ i = .packimg)
    (h : exec i s = .next t) : (∃ k, t = s.takeFault k) ∨ t = (s.writeOut (commandWrites i s)).advance := by
  obtain ⟨k, -, ht⟩ | ⟨rfl, -⟩ | ⟨-, -, ht⟩ := exec_cases h
  · exact .inl ⟨k, ht⟩
  · simp at hi
  · rw [commandEffect_of_pack hi] at ht
    exact .inr ht

/-- A byte of OUT at an address the command does not store to reads as before. -/
theorem exec_out_read_other {i : Instr} {s t : State} (h : exec i s = .next t) {a : Nat}
    (ha : ∀ p c, (p, c) ∈ commandPairs i s → a ≠ s.outAddress p c) : t.out.read a = s.out.read a := by
  obtain ⟨k, -, rfl⟩ | ⟨rfl, rfl⟩ | ⟨-, -, rfl⟩ := exec_cases h
  · rfl
  · rfl
  · rw [State.advance_out, commandEffect_out]
    refine Memory.read_writeAll_other (fun x hx => ?_) s.out
    obtain ⟨p, c, hpc, rfl⟩ := mem_commandWrites.1 hx
    exact (ha p c hpc).symm

/-- Settles O48: a fault changes STATUS alone, and the writes go to the addresses of the command's pairs. -/
theorem frameOfPackCommands : Obligations.FrameOfPackCommands := by
  unfold Obligations.FrameOfPackCommands
  intro i s t hi h
  have hregs : t.page = s.page ∧ t.col = s.col ∧ t.thr = s.thr ∧ t.width = s.width ∧ t.height = s.height ∧
      ((t.status = s.status ∧ t.pc = s.pc + 1#32) ∨
        ((∃ k : Cause, t.status = statusFaulted k s.status) ∧ t.pc = s.pc ∧ ∀ a, t.out.read a = s.out.read a)) := by
    obtain ⟨k, rfl⟩ | rfl := exec_pack_cases hi h
    · exact ⟨rfl, rfl, rfl, rfl, rfl, .inr ⟨⟨k, rfl⟩, rfl, fun _ => rfl⟩⟩
    · exact ⟨rfl, rfl, rfl, rfl, rfl, .inl ⟨rfl, rfl⟩⟩
  obtain ⟨hpage, hcol, hthr, hwidth, hheight, hcase⟩ := hregs
  refine ⟨exec_sameLaunch h, hpage, hcol, hthr, hwidth, hheight, hcase, ?_, ?_, ?_⟩
  · rintro rfl a ha
    exact exec_out_read_other h (by simpa [commandPairs] using ha)
  · rintro rfl a ha
    refine exec_out_read_other h fun p c hpc => ?_
    simp only [commandPairs, List.mem_map, List.mem_range, Prod.mk.injEq] at hpc
    obtain ⟨c, hc, rfl, rfl⟩ := hpc
    simp only [State.outAddress] at ha ⊢
    omega
  · rintro rfl a ha
    refine exec_out_read_other h fun p c hpc => ?_
    simp only [commandPairs, List.mem_flatMap, List.mem_map, List.mem_range, Prod.mk.injEq] at hpc
    obtain ⟨p, hp, c, hc, rfl, rfl⟩ := hpc
    exact ((address_lt hp hc).trans_le ha).ne'

end Sys2Proof.Machine

/-! ### Words in a byte memory -/

namespace Sys2Proof.Machine

theorem wordsOfBytes_append_bytesOfWord (w : Word) (bytes : List Byte) :
    wordsOfBytes (bytesOfWord w ++ bytes) = w :: wordsOfBytes bytes := by
  simp [bytesOfWord, wordsOfBytes]

@[simp] theorem wordsOfBytes_flatMap_bytesOfWord (ws : List Word) : wordsOfBytes (ws.flatMap bytesOfWord) = ws := by
  induction ws with
  | nil => rfl
  | cons w ws ih => rw [List.flatMap_cons, wordsOfBytes_append_bytesOfWord, ih]

@[simp] theorem length_bytesOfWord (w : Word) : (bytesOfWord w).length = 4 := rfl

/-- Byte `j` of a word is its bits `8j + 7 : 8j` (20_memory R61). -/
theorem bytesOfWord_getElem? (w : Word) {j : Nat} (hj : j < 4) :
    (bytesOfWord w)[j]? = some (w.extractLsb' (8 * j) 8) := by
  interval_cases j <;> rfl

theorem flatMap_bytesOfWord_getElem? (ws : List Word) {j : Nat} (hj : j < 4) :
    ∀ (a : Nat) (ha : a < ws.length),
      (ws.flatMap bytesOfWord)[4 * a + j]? = some (ws[a].extractLsb' (8 * j) 8) := by
  induction ws with
  | nil => exact fun a ha => absurd ha (Nat.not_lt_zero a)
  | cons w ws ih =>
    intro a ha
    rw [List.flatMap_cons]
    cases a with
    | zero =>
      rw [Nat.mul_zero, Nat.zero_add, List.getElem?_append_left (by rwa [length_bytesOfWord])]
      exact bytesOfWord_getElem? w hj
    | succ a =>
      rw [List.getElem?_append_right (by rw [length_bytesOfWord]; omega), length_bytesOfWord,
        show 4 * (a + 1) + j - 4 = 4 * a + j by omega]
      exact ih a (Nat.lt_of_succ_lt_succ ha)

/-- Settles O6: each word takes four bytes, so its bytes are `4a` to `4a + 3` and are read back as the word. -/
theorem wordsInByteMemoryAreLittleEndian : Obligations.WordsInByteMemoryAreLittleEndian := by
  unfold Obligations.WordsInByteMemoryAreLittleEndian
  exact fun ws => ⟨wordsOfBytes_flatMap_bytesOfWord ws, fun a j ha hj => flatMap_bytesOfWord_getElem? ws hj a ha⟩

end Sys2Proof.Machine

/-! ### The memories: lists read back, the last write, the order of writes -/

namespace Sys2Proof.Machine

@[simp] theorem Memory.length_toList {w : Nat} (m : Memory w) (n : Nat) : (m.toList n).length = n := by
  simp [Memory.toList]

theorem Memory.toList_getElem? {w : Nat} (m : Memory w) {n a : Nat} (ha : a < n) :
    (m.toList n)[a]? = some (m.read a) := by
  simp [Memory.toList, ha]

/-- A memory made from a list reads back as the list. -/
@[simp] theorem Memory.toList_ofList {w : Nat} (vs : List (BitVec w)) :
    (Memory.ofList vs).toList vs.length = vs := by
  refine List.ext_getElem? fun a => ?_
  by_cases ha : a < vs.length
  · rw [Memory.toList_getElem? _ ha, Memory.read_ofList]
    simp [ha]
  · simp [Nat.not_lt.1 ha]

/-- The last write of an address stands there (20_memory R64). -/
theorem Memory.read_writeAll_last {w : Nat} {after : List (Nat × BitVec w)} {a : Nat}
    (h : ∀ x ∈ after, x.1 ≠ a) (before : List (Nat × BitVec w)) (v : BitVec w) (m : Memory w) :
    (m.writeAll (before ++ (a, v) :: after)).read a = v := by
  rw [Memory.writeAll_append, Memory.writeAll_cons, Memory.read_writeAll_other h, Memory.read_write_same]

/-- Writes to different addresses may be made in any order. -/
theorem Memory.read_writeAll_perm {w : Nat} {ws ws' : List (Nat × BitVec w)} (hperm : ws'.Perm ws)
    (hnodup : (ws.map Prod.fst).Nodup) (m : Memory w) (a : Nat) :
    (m.writeAll ws').read a = (m.writeAll ws).read a := by
  have hnodup' : (ws'.map Prod.fst).Nodup := (hperm.map Prod.fst).nodup_iff.2 hnodup
  by_cases ha : ∃ x ∈ ws, x.1 = a
  · obtain ⟨x, hx, rfl⟩ := ha
    rw [Memory.read_writeAll_mem hnodup hx, Memory.read_writeAll_mem hnodup' (hperm.mem_iff.2 hx)]
  · have hother : ∀ x ∈ ws, x.1 ≠ a := fun x hx hxa => ha ⟨x, hx, hxa⟩
    rw [Memory.read_writeAll_other hother,
      Memory.read_writeAll_other fun x hx => hother x (hperm.mem_iff.1 hx)]

/-- Settles O32: the writes of a page or an image go to different addresses. -/
theorem writeOrderIsUnobservable : Obligations.WriteOrderIsUnobservable := by
  unfold Obligations.WriteOrderIsUnobservable
  exact fun s ws a => ⟨fun h => Memory.read_writeAll_perm h (nodup_imageWrites s) s.out a,
    fun p h => Memory.read_writeAll_perm h (nodup_pageWrites s p) s.out a⟩

/-- Settles O50: the lengths are exact as words, and a memory made from a list reads back as the list. -/
theorem launchBindsTheMemories : Obligations.LaunchBindsTheMemories := by
  unfold Obligations.LaunchBindsTheMemories
  intro s l hfits
  simp only [Launch.fits, Bool.and_eq_true, decide_eq_true_eq] at hfits
  obtain ⟨⟨hprog, himg⟩, hout⟩ := hfits
  exact ⟨⟨rfl, rfl, rfl, rfl, rfl, rfl, rfl⟩, toNat_word_of_lt hprog, toNat_word_of_lt himg, toNat_word_of_lt hout,
    Memory.toList_ofList l.prog, Memory.toList_ofList l.img, Memory.toList_ofList l.out⟩

end Sys2Proof.Machine

/-! ### Every access is admitted -/

namespace Sys2Proof.Machine

theorem stepEvents_of_stopped {s : State} (h : s.stopped = true) : stepEvents s = [] := by
  simp [stepEvents, sequence, h]

/-- A transaction of a step is the fetch, made only below PROG_LEN, or one of the command fetched. -/
theorem mem_stepEvents {s : State} {e : BusEvent} (h : e ∈ stepEvents s) :
    s.pc.toNat < s.progLen.toNat ∧ (e = .progFetch s.pc s.fetchWord ∨ ∃ i, e ∈ commandEvents i s) := by
  by_cases hs : s.stopped = true
  · rw [stepEvents_of_stopped hs] at h
    cases h
  · rw [Bool.not_eq_true] at hs
    by_cases hf : s.canFetch = true
    · refine ⟨of_decide_eq_true hf, ?_⟩
      cases hd : decode s.fetchWord with
      | command i =>
        rw [stepEvents_of_command hs hf hd] at h
        exact (List.mem_cons.1 h).imp_right fun he => ⟨i, he⟩
      | illegal why =>
        rw [stepEvents_of_illegal hs hf hd] at h
        exact .inl (List.mem_singleton.1 h)
    · rw [stepEvents_of_noFetch hs (Bool.eq_false_of_not_eq_true hf)] at h
      cases h

/-- The address of a transaction lies below the length of its space (20_memory R54). -/
def BusEvent.Admitted (s : State) : BusEvent → Prop
  | .progFetch a _ => a.toNat < s.progLen.toNat
  | .imgRead a _ => a.toNat < s.imgLen.toNat
  | .outWrite a _ => a.toNat < s.outLen.toNat

theorem toNat_word_lt {a : Nat} {len : Word} (h : a < len.toNat) : (BitVec.ofNat 32 a).toNat < len.toNat := by
  rwa [toNat_word_of_lt (h.trans len.isLt)]

theorem commandEvents_admitted {i : Instr} {s : State} {e : BusEvent} (h : e ∈ commandEvents i s) : e.Admitted s := by
  obtain ⟨hpass, p, c, hpc, ⟨a, ha, rfl⟩ | rfl⟩ := mem_commandEvents h
  · exact toNat_word_lt ((commandPairs_admitted hpass hpc).read_lt ha)
  · exact toNat_word_lt (commandPairs_admitted hpass hpc).out

theorem stepEvents_admitted {s : State} {e : BusEvent} (h : e ∈ stepEvents s) : e.Admitted s := by
  obtain ⟨hfetch, rfl | ⟨i, he⟩⟩ := mem_stepEvents h
  · exact hfetch
  · exact commandEvents_admitted he

/-- A command that enters a fault raised one. -/
theorem exec_raised_of_fault {i : Instr} {s t : State} (hs : s.fault = false) (h : exec i s = .next t)
    (ht : t.fault = true) : ∃ k, firstRaised (commandTests i s) = some k ∧ t = s.takeFault k := by
  obtain hraised | ⟨-, rfl⟩ | ⟨-, -, rfl⟩ := exec_cases h
  · exact hraised
  · rw [State.markHalted_fault, hs] at ht
    cases ht
  · rw [State.fault_of_status_eq (s := s) (by simp), hs] at ht
    cases ht

/-- Settles O30: the fetch follows the sequencer's test, the transactions of a command follow its own tests, and a
test that fails leaves no transaction. -/
theorem accessesAreAdmitted : Obligations.AccessesAreAdmitted := by
  unfold Obligations.AccessesAreAdmitted
  refine ⟨fun s e he => ?_, fun i s t hs h ht => ?_⟩
  · have hadm := stepEvents_admitted he
    cases e <;> exact hadm
  · obtain ⟨k, hraised, rfl⟩ := exec_raised_of_fault hs h ht
    exact ⟨commandEvents_of_raised hraised, rfl⟩

end Sys2Proof.Machine

/-! ### How many accesses a PACK command makes -/

namespace Sys2Proof.Machine

theorem length_filter_range_lt {k n : Nat} (h : k ≤ n) :
    ((List.range n).filter fun i => decide (i < k)).length = k := by
  obtain ⟨m, rfl⟩ := Nat.exists_eq_add_of_le h
  have hlow : (List.range k).filter (fun i => decide (i < k)) = List.range k := by simp
  have hhigh : ((List.range m).map (k + ·)).filter (fun i => decide (i < k)) = [] := by simp
  rw [List.range_add, List.filter_append, hlow, hhigh, List.append_nil, List.length_range]

/-- A (page, column) pair reads one sample for each row of its page that exists (41_pack R132). -/
@[simp] theorem length_cellReads (s : State) (p c : Nat) : (s.cellReads p c).length = nrows p s.height.toNat := by
  have hrow : ∀ i ∈ List.range 8,
      decide (8 * p + i < s.height.toNat) = decide (i < nrows p s.height.toNat) := by
    intro i hi
    rw [List.mem_range] at hi
    rw [nrows, decide_eq_decide]
    omega
  rw [State.cellReads, List.length_map, List.filter_congr hrow]
  exact length_filter_range_lt (min_le_left _ _)

@[simp] theorem length_pageReads (s : State) (p : Nat) :
    (s.pageReads p).length = s.width.toNat * nrows p s.height.toNat := by
  simp [State.pageReads, List.length_flatMap]

/-- The pages below `n` hold the rows of the image below `8n`. -/
theorem sum_nrows (H n : Nat) : ((List.range n).map fun p => nrows p H).sum = min (8 * n) H := by
  induction n with
  | zero => simp
  | succ n ih =>
    rw [List.range_succ, List.map_append, List.sum_append, ih, List.map_singleton, List.sum_singleton, nrows]
    omega

theorem le_eight_mul_pageCount (H : Nat) : H ≤ 8 * pageCount H := by
  unfold pageCount
  omega

theorem length_imageReads (s : State) : s.imageReads.length = s.width.toNat * s.height.toNat := by
  simp only [State.imageReads, List.length_flatMap, length_pageReads]
  rw [List.sum_map_mul_left, sum_nrows, State.pages, min_eq_right (le_eight_mul_pageCount _)]

@[simp] theorem length_outWrites_pageEvents (s : State) (p : Nat) :
    (outWrites (s.pageEvents p)).length = s.width.toNat := by
  simp [State.pageEvents, outWrites_flatMap, List.length_flatMap]

theorem length_outWrites_imageEvents (s : State) :
    (outWrites s.imageEvents).length = pageCount s.height.toNat * s.width.toNat := by
  simp [State.imageEvents, outWrites_flatMap, List.length_flatMap, State.pages]

/-- Settles O33: a pair reads one sample for each of the at most eight rows its page has, and writes once. -/
theorem accessCounts : Obligations.AccessCounts := by
  unfold Obligations.AccessCounts
  intro s p c
  have hrows : nrows p s.height.toNat ≤ 8 := min_le_left _ _
  refine ⟨?_, ?_, length_imageReads s, ?_, length_outWrites_pageEvents s p, length_outWrites_imageEvents s⟩
  · rwa [length_cellReads]
  · rw [length_pageReads, Nat.mul_comm]
    exact Nat.mul_le_mul_right _ hrows
  · rw [outWrites_cellEvents, List.length_singleton]

end Sys2Proof.Machine

/-! ### OUT over a run -/

namespace Sys2Proof.Machine

/-- Induction over a run: what holds of no step, and of a step followed by a run of which it holds, holds of every
run. -/
theorem run_induction {motive : State → List BusEvent → State → Prop} (stay : ∀ s, motive s [] s)
    (next : ∀ {s t u events}, step s = .next t → motive t events u → motive s (stepEvents s ++ events) u) :
    ∀ (n : Nat) (s : State), motive s (runEvents n s) (runState n s) := by
  intro n
  induction n with
  | zero => exact stay
  | succ n ih =>
    intro s
    by_cases h : ∃ t, step s = .next t
    · obtain ⟨t, ht⟩ := h
      rw [runEvents_of_next ht, runState_of_next ht]
      exact next ht (ih t)
    · obtain ⟨hstate, hevents⟩ := run_of_noNext (not_exists.1 h) (n + 1)
      rw [hstate, hevents]
      exact stay s

/-- `runState` is the run of the machine, where that does not stop early. -/
theorem runState_of_core_run (n : Nat) : ∀ {s t : State}, core.run n s = .next t → runState n s = t := by
  induction n with
  | zero => exact fun h => Host.Outcome.next.inj h
  | succ n ih =>
    intro s t h
    simp only [Host.Core.run, show core.step s = step s from rfl] at h
    cases hs : step s with
    | next u =>
      rw [hs] at h
      rw [runState_of_next hs]
      exact ih h
    | fault r => rw [hs] at h; cases h
    | refused r => rw [hs] at h; cases h

theorem step_sameLaunch {s t : State} (h : step s = .next t) : SameLaunch s t := by
  obtain ⟨-, ⟨k, rfl⟩ | rfl | ⟨-, i, -, rfl⟩⟩ := step_effect_cases h
  · exact ⟨rfl, rfl, rfl, rfl, rfl⟩
  · exact ⟨rfl, rfl, rfl, rfl, rfl⟩
  · exact sameLaunch_commandEffect i s

theorem runState_outLen (n : Nat) (s : State) : (runState n s).outLen = s.outLen := by
  refine run_induction (motive := fun s _ u => u.outLen = s.outLen) (fun _ => rfl) ?_ n s
  intro s t u events h ih
  rw [ih, (step_sameLaunch h).outLen]

theorem mem_outWrites {events : List BusEvent} {x : Word × Byte} :
    x ∈ outWrites events ↔ .outWrite x.1 x.2 ∈ events := by
  induction events with
  | nil => simp [outWrites]
  | cons e events ih => cases e <;> simp [outWrites, ih, Prod.ext_iff]

theorem outWrites_stepEvents_lt_outLen {s : State} {x : Word × Byte} (h : x ∈ outWrites (stepEvents s)) :
    x.1.toNat < s.outLen.toNat :=
  stepEvents_admitted (mem_outWrites.1 h)

theorem outWrites_runEvents_lt_outLen (n : Nat) (s : State) :
    ∀ x ∈ outWrites (runEvents n s), x.1.toNat < s.outLen.toNat := by
  refine run_induction (motive := fun s events _ => ∀ x ∈ outWrites events, x.1.toNat < s.outLen.toNat)
    (fun s x hx => by cases hx) ?_ n s
  intro s t u events h ih x hx
  rw [outWrites_append, List.mem_append] at hx
  obtain hx | hx := hx
  · exact outWrites_stepEvents_lt_outLen hx
  · rw [← (step_sameLaunch h).outLen]
    exact ih x hx

/-- OUT after a run is OUT before it with the packed-byte writes of the run made in their order. -/
theorem runState_out (n : Nat) (s : State) :
    (runState n s).out = s.out.writeAll ((outWrites (runEvents n s)).map fun x => (x.1.toNat, x.2)) := by
  refine run_induction
    (motive := fun s events u => u.out = s.out.writeAll ((outWrites events).map fun x => (x.1.toNat, x.2)))
    (fun _ => rfl) ?_ n s
  intro s t u events h ih
  rw [ih, (stepWritesWhatItsPortsShow s t h).1, outWrites_append, List.map_append, Memory.writeAll_append]

/-- Settles O54: OUT after the run is the writes of the run made in order, and each step's writes are admitted. -/
theorem outHoldsLaunchValuesAndLastWrites : Obligations.OutHoldsLaunchValuesAndLastWrites := by
  unfold Obligations.OutHoldsLaunchValuesAndLastWrites
  intro n s
  refine ⟨fun t => runState_of_core_run n, outWrites_runEvents_lt_outLen n s, fun a ha => ?_,
    fun before after a b hsplit hafter => ?_⟩
  · rw [runState_out]
    refine Memory.read_writeAll_other (fun x hx => ?_) s.out
    obtain ⟨y, hy, rfl⟩ := List.mem_map.1 hx
    exact ha y hy
  · rw [runState_out, hsplit, List.map_append, List.map_cons]
    refine Memory.read_writeAll_last (fun x hx => ?_) _ b s.out
    obtain ⟨y, hy, rfl⟩ := List.mem_map.1 hx
    exact fun heq => hafter y hy (BitVec.eq_of_toNat_eq heq)

end Sys2Proof.Machine

/-! ### The header and the Output Record -/

namespace Sys2Proof.Machine

/-- A number that fits a byte is exact as one. -/
theorem toNat_byte_ofInt {x : Int} (h0 : 0 ≤ x) (h : x < 256) : ((BitVec.ofInt 8 x).toNat : Int) = x := by
  rw [BitVec.toNat_ofInt]
  omega

theorem headerEncode_of_inRange {w h : Int} (hw0 : 0 ≤ w) (hw : w ≤ 65535) (hh0 : 0 ≤ h) (hh : h ≤ 65535) :
    headerEncode w h = some [BitVec.ofInt 8 (w % 256), BitVec.ofInt 8 (w / 256),
      BitVec.ofInt 8 (h % 256), BitVec.ofInt 8 (h / 256)] :=
  if_pos ⟨hw0, hw, hh0, hh⟩

/-- The low and the high byte of a dimension give it back (20_memory R59). -/
theorem dimension_eq_bytes {x : Int} (h0 : 0 ≤ x) (h : x ≤ 65535) :
    x = ((BitVec.ofInt 8 (x % 256)).toNat : Int) + 256 * ((BitVec.ofInt 8 (x / 256)).toNat : Int) := by
  rw [toNat_byte_ofInt (by omega) (by omega), toNat_byte_ofInt (by omega) (by omega)]
  omega

theorem ofInt_low_byte (d : Half) : BitVec.ofInt 8 ((d.toNat : Int) % 256) = d.extractLsb' 0 8 := by
  apply BitVec.eq_of_toNat_eq
  rw [BitVec.toNat_ofInt, BitVec.extractLsb'_toNat, Nat.shiftRight_zero]
  omega

theorem ofInt_high_byte (d : Half) : BitVec.ofInt 8 ((d.toNat : Int) / 256) = d.extractLsb' 8 8 := by
  apply BitVec.eq_of_toNat_eq
  rw [BitVec.toNat_ofInt, BitVec.extractLsb'_toNat, Nat.shiftRight_eq_div_pow]
  omega

/-- Settles O52: in range the four bytes are the low and the high byte of each dimension, which give it back. -/
theorem headerRoundTrips : Obligations.HeaderRoundTrips := by
  unfold Obligations.HeaderRoundTrips
  refine ⟨fun w h hw0 hw hh0 hh => ⟨_, _, _, _, headerEncode_of_inRange hw0 hw hh0 hh, dimension_eq_bytes hw0 hw,
    dimension_eq_bytes hh0 hh⟩, fun w h hout => if_neg (by omega), fun s => ?_⟩
  rw [headerEncode_of_inRange (by omega) (by omega) (by omega) (by omega)]
  simp only [ofInt_low_byte, ofInt_high_byte]

theorem outputRecord_isSome_iff {events : List BusEvent} {s : State} :
    (outputRecord events s).isSome = true ↔
      s.endedWell ∧ ∀ a < s.pages * s.width.toNat, ∃ x ∈ outWrites events, x.1.toNat = a := by
  rw [← imageIsPacked_iff, outputRecord]
  simp [State.endedWell]

theorem outputRecord_of_packed {events : List BusEvent} {s : State} (hend : s.endedWell)
    (hpacked : ∀ a < s.pages * s.width.toNat, ∃ x ∈ outWrites events, x.1.toNat = a) :
    outputRecord events s = some (s.header ++ s.out.toList (s.pages * s.width.toNat)) :=
  if_pos ⟨hend, imageIsPacked_iff.2 hpacked⟩

@[simp] theorem State.length_header (s : State) : s.header.length = 4 := rfl

/-- A run writes no byte beyond OUT_LEN, so an image it has packed lies within OUT. -/
theorem outFits_of_run_record {n : Nat} {s : State}
    (h : (outputRecord (runEvents n s) (runState n s)).isSome = true) :
    (runState n s).outFits (runState n s).width.toNat (runState n s).height.toNat := by
  obtain ⟨-, hpacked⟩ := outputRecord_isSome_iff.1 h
  refine le_of_forall_lt fun a ha => ?_
  obtain ⟨x, hx, rfl⟩ := hpacked a ha
  rw [runState_outLen]
  exact outWrites_runEvents_lt_outLen n s x hx

/-- Settles O53: the record is the header and then OUT up to the end of the image, formed only where every byte of
it was written. -/
theorem outputRecordLayout : Obligations.OutputRecordLayout := by
  unfold Obligations.OutputRecordLayout
  refine ⟨fun events s => ⟨fun hend _ hpacked => ?_, outputRecord_isSome_iff.1⟩, fun n s => outFits_of_run_record⟩
  refine ⟨_, outputRecord_of_packed hend hpacked, by simp [State.pages],
    List.take_left' s.length_header, fun p c hp hc => ?_⟩
  rw [List.getElem?_append_right (by rw [State.length_header]; omega), State.length_header,
    show 4 + p * s.width.toNat + c - 4 = p * s.width.toNat + c by omega]
  exact Memory.toList_getElem? s.out (address_lt hp hc)

end Sys2Proof.Machine

/-! ### Decoding is the inverse of encoding -/

namespace Sys2Proof

/-- The decoder reads back the three fields that format C lays down (30_encoding R84, R89). -/
@[simp] theorem decode_encode (i : Instr) : decode (encode i) = .command i := by
  cases i <;> simp [encode, decode, withoutOperand]

theorem withoutOperand_eq_command_iff {imm : Half} {i j : Instr} :
    withoutOperand imm i = .command j ↔ imm = 0#16 ∧ i = j := by
  by_cases h : imm = 0#16 <;> simp [withoutOperand, h]

theorem rsvField_of_decode {w : Word} {i : Instr} (h : decode w = .command i) : rsvField w = 0x00#8 := by
  by_contra hr
  simp [decode, hr] at h

/-- A word that decodes has `rsv = 0`, so it is format C of its own opcode and immediate, which each test of the
decoder fixes as those of the command it answers. -/
theorem encode_of_decode {w : Word} {i : Instr} (h : decode w = .command i) : encode i = w := by
  have hr := rsvField_of_decode h
  rw [← formatC_fields hr]
  rw [decode, if_neg (not_not_intro hr)] at h
  split_ifs at h with hop hop hop hop hop hop hop hop hop hop <;> rw [hop]
  iterate 5
    · cases h
      rfl
  iterate 5
    · obtain ⟨himm, rfl⟩ := withoutOperand_eq_command_iff.1 h
      rw [himm]
      rfl

theorem decode_eq_command_iff {w : Word} {i : Instr} : decode w = .command i ↔ encode i = w :=
  ⟨encode_of_decode, fun h => h ▸ decode_encode i⟩

@[simp] theorem decodeBytes_bytesOfWord_append (w : Word) (rest : List Byte) :
    decodeBytes (bytesOfWord w ++ rest) = (decode w, rest) := by
  simp [bytesOfWord, decodeBytes]

/-- Settles O1: the decoder inverts the encoder on a word, and the four bytes of a word make the word. -/
theorem decodeOfEncode : Obligations.DecodeOfEncode := by
  unfold Obligations.DecodeOfEncode
  exact fun i rest => ⟨decode_encode i, by rw [decodeBytes_bytesOfWord_append, decode_encode]⟩

/-- Settles O2: the decoder answers a command only for the word with that command's fields and `rsv = 0`. -/
theorem encodeOfDecode : Obligations.EncodeOfDecode := by
  unfold Obligations.EncodeOfDecode
  exact fun _ _ => encode_of_decode

end Sys2Proof

/-! ### The opcode map -/

namespace Sys2Proof

theorem formatC_eq_iff {op : Byte} {imm : Half} {w : Word} :
    formatC op imm = w ↔ rsvField w = 0x00#8 ∧ opField w = op ∧ immField w = imm := by
  constructor
  · rintro rfl
    exact ⟨rsvField_formatC op imm, opField_formatC op imm, immField_formatC op imm⟩
  · rintro ⟨hr, rfl, rfl⟩
    exact formatC_fields hr

/-- A class I command is fixed by bits 31:16, with bits 15:0 as its immediate (30_encoding R87). -/
theorem decode_eq_classI_iff {i : Instr} {imm : Half} (op : Byte) (hi : encode i = formatC op imm) (w : Word) :
    decode w = .command i ↔ w &&& 0xFFFF0000#32 = op.setWidth 32 <<< 24 ∧ imm = w.extractLsb' 0 16 := by
  rw [decode_eq_command_iff, hi, formatC_eq_iff, masked_eq_iff, and_assoc, eq_comm (a := imm)]
  rfl

theorem and_fullMask (w : Word) : w &&& 0xFFFFFFFF#32 = w := BitVec.and_allOnes

/-- A class N command is fixed by all 32 bits (30_encoding R87). -/
theorem decode_eq_classN_iff (i : Instr) (w : Word) : decode w = .command i ↔ w &&& 0xFFFFFFFF#32 = encode i := by
  rw [decode_eq_command_iff, and_fullMask, eq_comm]

theorem opRow_holds_encode (i : Instr) : (opRow i).holds (encode i) = true := by
  have hformat : Laws.Format.Statement i := by
    cases i with
    | setthr imm => exact Laws.Format.setthr imm
    | setw imm => exact Laws.Format.setw imm
    | seth imm => exact Laws.Format.seth imm
    | setpage imm => exact Laws.Format.setpage imm
    | setcol imm => exact Laws.Format.setcol imm
    | nop => exact Laws.Format.nop
    | packcol => exact Laws.Format.packcol
    | packpage => exact Laws.Format.packpage
    | packimg => exact Laws.Format.packimg
    | endRun => exact Laws.Format.endRun
  exact hformat.2.2

/-- A word that matches a row is a command of that row: the row's own, up to the immediate. -/
theorem decode_of_opRow_holds {i : Instr} {w : Word} (h : (opRow i).holds w = true) :
    ∃ j, opRow j = opRow i ∧ decode w = .command j := by
  have hmatch : w &&& (opRow i).mask = (opRow i).pattern := of_decide_eq_true h
  cases i with
  | setthr => exact ⟨.setthr (immField w), rfl, (decode_eq_classI_iff 0x01#8 rfl w).2 ⟨hmatch, rfl⟩⟩
  | setw => exact ⟨.setw (immField w), rfl, (decode_eq_classI_iff 0x02#8 rfl w).2 ⟨hmatch, rfl⟩⟩
  | seth => exact ⟨.seth (immField w), rfl, (decode_eq_classI_iff 0x03#8 rfl w).2 ⟨hmatch, rfl⟩⟩
  | setpage => exact ⟨.setpage (immField w), rfl, (decode_eq_classI_iff 0x04#8 rfl w).2 ⟨hmatch, rfl⟩⟩
  | setcol => exact ⟨.setcol (immField w), rfl, (decode_eq_classI_iff 0x05#8 rfl w).2 ⟨hmatch, rfl⟩⟩
  | nop => exact ⟨.nop, rfl, (decode_eq_classN_iff .nop w).2 hmatch⟩
  | packcol => exact ⟨.packcol, rfl, (decode_eq_classN_iff .packcol w).2 hmatch⟩
  | packpage => exact ⟨.packpage, rfl, (decode_eq_classN_iff .packpage w).2 hmatch⟩
  | packimg => exact ⟨.packimg, rfl, (decode_eq_classN_iff .packimg w).2 hmatch⟩
  | endRun => exact ⟨.endRun, rfl, (decode_eq_classN_iff .endRun w).2 hmatch⟩

theorem opRow_holds_iff {i : Instr} {w : Word} :
    (opRow i).holds w = true ↔ ∃ j, opRow j = opRow i ∧ decode w = .command j := by
  refine ⟨decode_of_opRow_holds, ?_⟩
  rintro ⟨j, hrow, hdecode⟩
  rw [← hrow, ← encode_of_decode hdecode]
  exact opRow_holds_encode j

theorem mem_opTable_iff {r : OpRow} : r ∈ opTable ↔ ∃ i, opRow i = r := by
  constructor
  · intro h
    simp only [opTable, List.mem_cons, List.not_mem_nil, or_false] at h
    rcases h with h | h | h | h | h | h | h | h | h | h <;> exact ⟨_, h.symm⟩
  · rintro ⟨i, rfl⟩
    cases i <;> simp [opTable, opRow]

/-- A word matches at most one row: the row of the command it decodes to. -/
theorem eq_of_holds_both {r r' : OpRow} {w : Word} (hr : r ∈ opTable) (hr' : r' ∈ opTable)
    (h : r.holds w = true) (h' : r'.holds w = true) : r = r' := by
  obtain ⟨i, rfl⟩ := mem_opTable_iff.1 hr
  obtain ⟨i', rfl⟩ := mem_opTable_iff.1 hr'
  obtain ⟨j, hj, hdecode⟩ := decode_of_opRow_holds h
  obtain ⟨j', hj', hdecode'⟩ := decode_of_opRow_holds h'
  obtain rfl : j = j' := Decoded.command.inj (hdecode.symm.trans hdecode')
  exact hj.symm.trans hj'

theorem nodup_opTable : opTable.Nodup := by decide

/-- Settles O3: a class I command is its row's bits 31:16, a class N command its whole word, and no two of the
rows that a word could match are the same. -/
theorem commandsAreTheTenPatterns : Obligations.CommandsAreTheTenPatterns := by
  unfold Obligations.CommandsAreTheTenPatterns
  refine ⟨fun w => ⟨fun _ => decode_eq_classI_iff 0x01#8 rfl w, fun _ => decode_eq_classI_iff 0x02#8 rfl w,
    fun _ => decode_eq_classI_iff 0x03#8 rfl w, fun _ => decode_eq_classI_iff 0x04#8 rfl w,
    fun _ => decode_eq_classI_iff 0x05#8 rfl w, decode_eq_classN_iff .nop w, decode_eq_classN_iff .packcol w,
    decode_eq_classN_iff .packpage w, decode_eq_classN_iff .packimg w, decode_eq_classN_iff .endRun w⟩, ?_⟩
  exact nodup_opTable.imp_of_mem fun hr hr' hne w ⟨h, h'⟩ => hne (eq_of_holds_both hr hr' h h')

end Sys2Proof

/-! ### The illegal words -/

namespace Sys2Proof

theorem Decoded.isIllegal_iff {d : Decoded} : d.isIllegal = true ↔ ∀ i, d ≠ .command i := by
  cases d <;> simp [Decoded.isIllegal]

theorem isIllegal_iff_no_row (w : Word) : (decode w).isIllegal = true ↔ ∀ r ∈ opTable, r.holds w = false := by
  rw [Decoded.isIllegal_iff]
  constructor
  · intro h r hr
    obtain ⟨i, rfl⟩ := mem_opTable_iff.1 hr
    refine Bool.eq_false_iff.2 fun hholds => ?_
    obtain ⟨j, -, hdecode⟩ := decode_of_opRow_holds hholds
    exact h j hdecode
  · intro h i hdecode
    have hfalse := h (opRow i) (mem_opTable_iff.2 ⟨i, rfl⟩)
    rw [opRow_holds_iff.2 ⟨i, rfl, hdecode⟩] at hfalse
    cases hfalse

/-- The opcodes of the class I commands (30_encoding R87). -/
def classIOpcodes : List Byte := [0x01#8, 0x02#8, 0x03#8, 0x04#8, 0x05#8]

/-- The opcodes of the class N commands (30_encoding R87). -/
def classNOpcodes : List Byte := [0x06#8, 0x10#8, 0x11#8, 0x12#8, 0x7F#8]

@[simp] theorem withoutOperand_isIllegal (imm : Half) (i : Instr) :
    (withoutOperand imm i).isIllegal = true ↔ imm ≠ 0#16 := by
  by_cases h : imm = 0#16 <;> simp [withoutOperand, Decoded.isIllegal, h]

theorem decode_of_reserved {w : Word} (h : rsvField w ≠ 0x00#8) : decode w = .illegal .reservedField := by
  simp [decode, h]

theorem decode_of_unassigned {w : Word} (hr : rsvField w = 0x00#8) (hI : opField w ∉ classIOpcodes)
    (hN : opField w ∉ classNOpcodes) : decode w = .illegal .unassignedOpcode := by
  simp only [classIOpcodes, classNOpcodes, List.mem_cons, List.not_mem_nil, or_false, not_or] at hI hN
  simp [decode, hr, hI, hN]

theorem isIllegal_of_classI {w : Word} (hr : rsvField w = 0x00#8) (h : opField w ∈ classIOpcodes) :
    (decode w).isIllegal = false := by
  simp only [classIOpcodes, List.mem_cons, List.not_mem_nil, or_false] at h
  rcases h with h | h | h | h | h <;> simp [decode, hr, h, Decoded.isIllegal]

theorem isIllegal_iff_of_classN {w : Word} (hr : rsvField w = 0x00#8) (h : opField w ∈ classNOpcodes) :
    (decode w).isIllegal = true ↔ immField w ≠ 0#16 := by
  simp only [classNOpcodes, List.mem_cons, List.not_mem_nil, or_false] at h
  rcases h with h | h | h | h | h <;> simp [decode, hr, h]

/-- The three grounds of 30_encoding R88. -/
theorem isIllegal_iff_grounds (w : Word) :
    (decode w).isIllegal = true ↔ rsvField w ≠ 0x00#8 ∨ opField w ∉ classIOpcodes ++ classNOpcodes ∨
      opField w ∈ classNOpcodes ∧ immField w ≠ 0#16 := by
  by_cases hr : rsvField w = 0x00#8
  · by_cases hN : opField w ∈ classNOpcodes
    · simp [isIllegal_iff_of_classN hr hN, hr, hN]
    · by_cases hI : opField w ∈ classIOpcodes
      · simp [isIllegal_of_classI hr hI, hr, hN, hI]
      · simp [decode_of_unassigned hr hI hN, hN, hI, Decoded.isIllegal]
  · simp [decode_of_reserved hr, hr, Decoded.isIllegal]

theorem step_of_isIllegal {s : Machine.State} (hrun : s.stopped = false) (hfetch : s.canFetch = true)
    (h : (decode s.fetchWord).isIllegal = true) : Machine.step s = .next (s.takeFault .illegal) := by
  cases hdecode : decode s.fetchWord with
  | command i => exact absurd hdecode (Decoded.isIllegal_iff.1 h i)
  | illegal why => exact Machine.step_of_illegal hrun hfetch hdecode

/-- Settles O4: a matching row and a command are the same thing, and the decoder's tests are the three grounds. -/
theorem illegalWordsAreTheRest : Obligations.IllegalWordsAreTheRest := by
  unfold Obligations.IllegalWordsAreTheRest
  exact ⟨fun w => ⟨isIllegal_iff_no_row w, isIllegal_iff_grounds w⟩, fun _ => step_of_isIllegal,
    by decide, by decide, fun imm _ => decode_encode (.setthr imm)⟩

/-- Settles O5, by running the decoder on the words. -/
theorem exampleWordsDecode : Obligations.ExampleWordsDecode := by
  unfold Obligations.ExampleWordsDecode
  decide

end Sys2Proof

/-! ### The assembler -/

namespace Sys2Proof.Machine

/-- What the assembler puts out is the encoding of the commands it read. -/
theorem eq_map_encode_of_assemble {lines : List (List Char)} {ws : List Word} (h : assemble lines = .ok ws) :
    ∃ is : List Instr, ws = is.map encode := by
  unfold assemble at h
  split at h
  · next is _ => exact ⟨is, (Except.ok.inj h).symm⟩
  · cases h

/-- Settles O8: every word the assembler makes is the encoding of a command, which decodes to it. -/
theorem assembledWordsAreCommands : Obligations.AssembledWordsAreCommands := by
  unfold Obligations.AssembledWordsAreCommands
  intro lines ws h w hw
  obtain ⟨is, rfl⟩ := eq_map_encode_of_assemble h
  obtain ⟨i, -, rfl⟩ := List.mem_map.1 hw
  exact ⟨i, decode_encode i, rfl⟩

theorem packPages_succ (n : Nat) : packPages (n + 1) = packPages n ++ packPageNumber n := by
  simp [packPages, List.range_succ]

/-- Settles O7: one more page is one more element at the end of the range of pages. -/
theorem pseudoInstructionsExpand : Obligations.PseudoInstructionsExpand := by
  unfold Obligations.PseudoInstructionsExpand
  exact ⟨fun _ _ => rfl, rfl, packPages_succ⟩

end Sys2Proof.Machine

/-! ### The configuration commands -/

namespace Sys2Proof.Machine

/-- A command that tests nothing, END apart, decodes from its word and has its effect in every state. -/
theorem completes_of_untested {i : Instr} (htests : ∀ s, commandTests i s = []) (hend : i ≠ .endRun) :
    decode (encode i) = .command i ∧ ∀ s : State, exec i s = .next (commandEffect i s).advance :=
  ⟨decode_encode i, fun s => exec_of_passed (by rw [htests s, firstRaised_nil]) hend⟩

/-- Settles O9: the word is the encoding of SETTHR, and its one test splits the immediates at 255. -/
theorem setthrWritesOrRaisesConfig : Obligations.SetthrWritesOrRaisesConfig := by
  unfold Obligations.SetthrWritesOrRaisesConfig
  exact fun imm => ⟨decode_encode (.setthr imm),
    fun s => ⟨fun hsmall => exec_setthr_of_le hsmall s, fun hbig => exec_setthr_of_gt hbig s⟩⟩

/-- Settles O10: none of the five commands tests anything, and the word of each is its encoding. -/
theorem configurationCommandsComplete : Obligations.ConfigurationCommandsComplete := by
  unfold Obligations.ConfigurationCommandsComplete
  refine ⟨fun imm => ?setw, fun imm => ?seth, fun imm => ?setpage, fun imm => ?setcol, ?nop⟩
  case setw => exact completes_of_untested (i := .setw imm) (fun _ => rfl) nofun
  case seth => exact completes_of_untested (i := .seth imm) (fun _ => rfl) nofun
  case setpage => exact completes_of_untested (i := .setpage imm) (fun _ => rfl) nofun
  case setcol => exact completes_of_untested (i := .setcol imm) (fun _ => rfl) nofun
  case nop => exact completes_of_untested (i := .nop) (fun _ => rfl) nofun

end Sys2Proof.Machine

/-! ### The bits of a packed byte -/

namespace Sys2Proof.Machine

/-- Bit `j` of a sum of bits at their weights, the sum of 41_pack R124, is bit `j`. -/
theorem testBit_sum_bits (b : Nat → Bool) (n : Nat) :
    ((List.range n).map fun i => (b i).toNat * 2 ^ i).sum < 2 ^ n ∧
      ∀ j < n, ((List.range n).map fun i => (b i).toNat * 2 ^ i).sum.testBit j = b j := by
  induction n with
  | zero => simp
  | succ n ih =>
    obtain ⟨hlt, hbit⟩ := ih
    rw [List.range_succ, List.map_append, List.sum_append, List.map_singleton, List.sum_singleton]
    generalize ((List.range n).map fun i => (b i).toNat * 2 ^ i).sum = low at hlt hbit
    have htop : (b n).toNat * 2 ^ n ≤ 1 * 2 ^ n := Nat.mul_le_mul_right _ (Bool.toNat_le _)
    refine ⟨by omega, fun j hj => ?_⟩
    rw [Nat.add_comm, Nat.mul_comm, Nat.testBit_two_pow_mul_add _ hlt]
    rcases Nat.lt_succ_iff_lt_or_eq.1 hj with hj | rfl
    · rw [if_pos hj, hbit j hj]
    · cases b j <;> simp

theorem packSum_lt (img : Image) (H : Nat) (t : Byte) (p c : Nat) : packSum img H t p c < 2 ^ 8 :=
  (testBit_sum_bits (pixelBit img H t p c) 8).1

theorem toNat_packbyte (img : Image) (H : Nat) (t : Byte) (p c : Nat) :
    (packbyte img H t p c).toNat = packSum img H t p c := by
  rw [packbyte, BitVec.toNat_ofNat, Nat.mod_eq_of_lt (packSum_lt img H t p c)]

/-- Bit `i` of a packed byte: the row exists and its sample is at or above the threshold. -/
theorem packbyte_getLsbD (img : Image) (H : Nat) (t : Byte) (p c : Nat) {i : Nat} (hi : i < 8) :
    (packbyte img H t p c).getLsbD i = (rowValid p i H && on (img (8 * p + i) c) t) := by
  have hbit : (packbyte img H t p c).getLsbD i = pixelBit img H t p c i := by
    rw [← BitVec.testBit_toNat, toNat_packbyte]
    exact (testBit_sum_bits (pixelBit img H t p c) 8).2 i hi
  rw [hbit, pixelBit, rowOf]
  cases rowValid p i H <;> rfl

theorem packbyte_getLsbD_iff (img : Image) (H : Nat) (t : Byte) (p c : Nat) {i : Nat} (hi : i < 8) :
    (packbyte img H t p c).getLsbD i = true ↔ 8 * p + i < H ∧ t.toNat ≤ (img (8 * p + i) c).toNat := by
  rw [packbyte_getLsbD img H t p c hi, rowValid, rowOf, on, Bool.and_eq_true, decide_eq_true_eq, decide_eq_true_eq]

/-- The loop of the PACK commands computes the packed byte (41_pack R139). -/
theorem packLoop_eq_packbyte (img : Image) (H : Nat) (t : Byte) (p c : Nat) :
    packLoop img H t p c = packbyte img H t p c :=
  BitVec.eq_of_getLsbD_eq fun i hi => by
    rw [packLoop_getLsbD img H t p c hi, packbyte_getLsbD img H t p c hi, rowValid, rowOf, on]

/-- Settles O20: the packed byte is below `2^8`, so exact, and its bits are those of the sum. -/
theorem bitOfPackedByteIsItsRow : Obligations.BitOfPackedByteIsItsRow := by
  unfold Obligations.BitOfPackedByteIsItsRow
  exact fun img H t p c => ⟨toNat_packbyte img H t p c, fun _ => packbyte_getLsbD_iff img H t p c⟩

/-! ### The rows of a page -/

theorem rowValid_iff_lt_nrows {p i H : Nat} (hi : i < 8) : rowValid p i H = true ↔ i < nrows p H := by
  rw [rowValid, rowOf, nrows, decide_eq_true_eq]
  omega

theorem nrows_le_eight (p H : Nat) : nrows p H ≤ 8 := min_le_left _ _

theorem toNat_vmask (p H : Nat) : (vmask p H).toNat = 2 ^ nrows p H - 1 := by
  have hpow : 2 ^ nrows p H ≤ 2 ^ 8 := Nat.pow_le_pow_right (by decide) (nrows_le_eight p H)
  rw [vmask, BitVec.toNat_ofNat, Nat.mod_eq_of_lt (by omega)]

/-- Bit `i` of the mask: row `8p + i` exists (41_pack R125). -/
theorem vmask_getLsbD {i : Nat} (hi : i < 8) (p H : Nat) : (vmask p H).getLsbD i = rowValid p i H := by
  rw [← BitVec.testBit_toNat, toNat_vmask, Nat.testBit_two_pow_sub_one, Bool.eq_iff_iff, decide_eq_true_eq,
    rowValid_iff_lt_nrows hi]

/-- The packed byte is any byte of compare bits, masked by the rows that exist. -/
theorem packbyte_eq_masked {img : Image} {H : Nat} {t : Byte} {p c : Nat} {cmp : Byte}
    (h : ∀ i < nrows p H, cmp.getLsbD i = on (img (8 * p + i) c) t) :
    packbyte img H t p c = cmp &&& vmask p H := by
  refine BitVec.eq_of_getLsbD_eq fun i hi => ?_
  rw [packbyte_getLsbD img H t p c hi, BitVec.getLsbD_and, vmask_getLsbD hi, Bool.and_comm]
  cases hrow : rowValid p i H with
  | false => simp
  | true => rw [h i ((rowValid_iff_lt_nrows hi).1 hrow)]

/-- A bit from `nrows` up is 0. -/
theorem packbyte_getLsbD_of_nrows_le (img : Image) {H : Nat} (t : Byte) {p : Nat} (c : Nat) {i : Nat}
    (h : nrows p H ≤ i) : (packbyte img H t p c).getLsbD i = false := by
  rcases Nat.lt_or_ge i 8 with hi | hi
  · rw [packbyte_getLsbD img H t p c hi, Bool.eq_false_of_not_eq_true (mt (rowValid_iff_lt_nrows hi).1 h.not_gt),
      Bool.false_and]
  · exact BitVec.getLsbD_of_ge _ _ hi

theorem packbyte_lt_two_pow_nrows (img : Image) (H : Nat) (t : Byte) (p c : Nat) :
    (packbyte img H t p c).toNat < 2 ^ nrows p H := by
  refine Nat.lt_pow_two_of_testBit _ fun i hi => ?_
  rw [BitVec.testBit_toNat]
  exact packbyte_getLsbD_of_nrows_le img t c hi

/-- A packed byte depends on the threshold and the samples of its own rows only (41_pack R129). -/
theorem packbyte_congr {img img' : Image} {H : Nat} {p c : Nat} (t : Byte)
    (h : ∀ i < nrows p H, img' (8 * p + i) c = img (8 * p + i) c) :
    packbyte img' H t p c = packbyte img H t p c := by
  refine BitVec.eq_of_getLsbD_eq fun i hi => ?_
  rw [packbyte_getLsbD img' H t p c hi, packbyte_getLsbD img H t p c hi]
  cases hrow : rowValid p i H with
  | false => rfl
  | true => rw [h i ((rowValid_iff_lt_nrows hi).1 hrow)]

/-- A 16-bit height has at most 8192 pages. -/
theorem pageCount_half_le (h : Half) : pageCount h.toNat ≤ 8192 := by
  have := h.isLt
  unfold pageCount
  omega

/-- Settles O21: arithmetic on the ceiling; `H[15:3]` and `H[2:0]` are the quotient and the rest by 8. -/
theorem pageCountIsTheCeiling : Obligations.PageCountIsTheCeiling := by
  unfold Obligations.PageCountIsTheCeiling
  refine ⟨fun H => ?ceiling, rfl, fun H h1 h8 => ?one, rfl, rfl, fun h => ⟨pageCount_half_le h, ?fields⟩⟩
  case ceiling => unfold pageCount; omega
  case one => unfold pageCount; omega
  case fields =>
    have := h.isLt
    have hlow : h.extractLsb' 0 3 = 0#3 ↔ h.toNat % 8 = 0 := by
      rw [← BitVec.toNat_inj, BitVec.extractLsb'_toNat, Nat.shiftRight_zero]
      rfl
    rw [BitVec.extractLsb'_toNat, Nat.shiftRight_eq_div_pow, pageCount]
    by_cases hrest : h.toNat % 8 = 0
    · rw [if_pos (hlow.2 hrest)]
      omega
    · rw [if_neg (mt hlow.1 hrest)]
      omega

/-- Settles O22: the rows of a page by arithmetic, the rest bit by bit. -/
theorem packedByteIsMaskedCompare : Obligations.PackedByteIsMaskedCompare := by
  unfold Obligations.PackedByteIsMaskedCompare
  intro img H t p c hp
  have hfirst : 8 * p < H := lt_pageCount_iff.1 hp
  refine ⟨?least, nrows_le_eight p H, ?full, ?last, toNat_vmask p H,
    fun i hi => ⟨rowValid_iff_lt_nrows hi, vmask_getLsbD hi p H⟩, fun _ => packbyte_eq_masked,
    packbyte_lt_two_pow_nrows img H t p c⟩
  case least => unfold nrows; omega
  case full => unfold nrows pageCount; omega
  case last => unfold nrows pageCount; omega

/-! ### Thresholds -/

/-- Settles O25: the comparison `t ≤ s` at 0, 255 and 128, and the image of samples 255 for the last clause. -/
theorem thresholdExtremes : Obligations.ThresholdExtremes := by
  unfold Obligations.ThresholdExtremes
  refine ⟨fun img H p c => ⟨?zero, fun i hi => ?_⟩, fun t H p c hp => ⟨fun _ _ => 255#8, fun hzero => ?_⟩⟩
  case zero =>
    refine BitVec.eq_of_getLsbD_eq fun i hi => ?_
    rw [packbyte_getLsbD img H 0#8 p c hi, vmask_getLsbD hi]
    simp [on]
  · have hi8 : i < 8 := hi.trans_le (nrows_le_eight p H)
    have hrow : 8 * p + i < H := of_decide_eq_true ((rowValid_iff_lt_nrows hi8).2 hi)
    rw [packbyte_getLsbD_iff img H _ p c hi8, packbyte_getLsbD_iff img H _ p c hi8]
    refine ⟨?_, and_iff_right hrow⟩
    have hmax : 255 ≤ (img (8 * p + i) c).toNat ↔ img (8 * p + i) c = 255#8 := by bv_omega
    simpa [hrow] using hmax
  · have hbit : (packbyte (fun _ _ => 255#8) H t p c).getLsbD 0 = true :=
      (packbyte_getLsbD_iff _ H t p c (by decide)).2
        ⟨lt_pageCount_iff.1 hp, Nat.le_of_lt_succ (show t.toNat < 256 from t.isLt)⟩
    rw [hzero] at hbit
    cases hbit

/-! ### The cell -/

/-- Bit `i` of a cell's output is its gate `i` (41_pack R126). -/
theorem cellOutput_getLsbD (x : CellInput) (i : Fin 8) : (cellOutput x).getLsbD i.val = x.gate i := by
  simp only [cellOutput, BitVec.getLsbD_append, BitVec.getLsbD_ofBool]
  fin_cases i <;> rfl

theorem cellOutput_arrayInput (img undriven : Image) (H : Nat) (t : Byte) (p c : Nat) :
    cellOutput (arrayInput img undriven H t p c) = packbyte img H t p c := by
  refine BitVec.eq_of_getLsbD_eq fun i hi => ?_
  rw [cellOutput_getLsbD _ ⟨i, hi⟩, packbyte_getLsbD img H t p c hi]
  simp only [CellInput.gate, CellInput.compare, arrayInput, validInput, vmask_getLsbD hi]
  cases hrow : rowValid p i H with
  | false => simp
  | true => simp [on, rowOf]

/-- Settles O26: a gate is the comparison and its valid bit, and a valid bit of 0 hides the undriven wire. -/
theorem cellComputesPackbyte : Obligations.CellComputesPackbyte := by
  unfold Obligations.CellComputesPackbyte
  exact ⟨cellOutput_getLsbD, fun img undriven H t p c =>
    ⟨fun i => vmask_getLsbD i.isLt p H, cellOutput_arrayInput img undriven H t p c⟩⟩

/-! ### Pages and passes as one range -/

/-- `n` runs of `W` elements, one after another, are one run of `n * W`. -/
theorem flatMap_range_map_range {α : Type} (f : Nat → Nat → α) (n W : Nat) :
    ((List.range n).flatMap fun p => (List.range W).map (f p)) =
      (List.range (n * W)).map fun k => f (k / W) (k % W) := by
  induction n with
  | zero => simp
  | succ n ih =>
    have hlast : ∀ c ∈ List.range W, f n c = f ((n * W + c) / W) ((n * W + c) % W) := by
      intro c hc
      rw [List.mem_range] at hc
      rw [Nat.mul_comm, Nat.mul_add_div (by omega), Nat.mul_add_mod, Nat.div_eq_of_lt hc, Nat.mod_eq_of_lt hc,
        Nat.add_zero]
    rw [List.range_succ, List.flatMap_append, ih, Nat.succ_mul, List.range_add, List.map_append, List.map_map,
      List.flatMap_singleton, List.map_congr_left hlast]
    rfl

theorem packimage_eq_map (img : Image) (W H : Nat) (t : Byte) :
    packimage img W H t = (List.range (pageCount H * W)).map fun k => packbyte img H t (k / W) (k % W) :=
  flatMap_range_map_range (packbyte img H t) (pageCount H) W

/-- Settles O23: a page is a run of `W` bytes, and the image is one run of all its pages. -/
theorem packimageElements : Obligations.PackimageElements := by
  unfold Obligations.PackimageElements
  intro img W H t
  refine ⟨fun p => ⟨by simp [packpage], fun c hc => by simp [packpage, hc]⟩, ?_, fun k hk => ?_⟩
  · simp [packimage_eq_map]
  · simp [packimage_eq_map, hk]

theorem filter_range_lt {W N : Nat} (h : W ≤ N) :
    ((List.range N).filter fun c => decide (c < W)) = List.range W := by
  obtain ⟨m, rfl⟩ := Nat.exists_eq_add_of_le h
  have hlow : (List.range W).filter (fun c => decide (c < W)) = List.range W := by simp
  have hhigh : ((List.range m).map (W + ·)).filter (fun c => decide (c < W)) = [] := by simp
  rw [List.range_add, List.filter_append, hlow, hhigh, List.append_nil]

/-- The passes of `n` cells go over the columns once, from the left. -/
theorem flatMap_passColumns {n : Nat} (W : Nat) (hn : 1 ≤ n) :
    (List.range (passCount n W)).flatMap (passColumns n W) = List.range W := by
  have hcover : W ≤ passCount n W * n := by
    have hdiv := Nat.div_add_mod (W + n - 1) n
    have hmod := Nat.mod_lt (W + n - 1) hn
    rw [passCount, Nat.mul_comm]
    omega
  unfold passColumns
  rw [← List.filter_flatMap, flatMap_range_map_range fun k j => k * n + j]
  simp only [Nat.div_add_mod', List.map_id']
  exact filter_range_lt hcover

/-- Settles O27: each cell computes its packed byte, and the passes go over the columns once, from the left. -/
theorem anyNumberOfCellsGivesThePage : Obligations.AnyNumberOfCellsGivesThePage := by
  unfold Obligations.AnyNumberOfCellsGivesThePage
  intro n img undriven W H t p hn
  simp only [arrayPage, pageInPasses, packpage, cellOutput_arrayInput, true_and]
  rw [← List.map_flatMap, flatMap_passColumns W hn]

end Sys2Proof.Machine

/-! ### What the PACK commands test and write -/

namespace Sys2Proof.Machine

/-- The write of a pair is its packed byte, at the pair's address (41_pack R139). -/
theorem cellWrite_eq (s : State) (p c : Nat) :
    s.cellWrite p c = (p * s.width.toNat + c, packbyte s.imgAt s.height.toNat s.thr p c) := by
  rw [State.cellWrite, State.outAddress, packLoop_eq_packbyte]

/-- The tests of PACKCOL in their order (41_pack R134). -/
theorem firstRaised_packcol (s : State) :
    firstRaised (commandTests .packcol s) =
      if s.imgLen.toNat ≠ s.width.toNat * s.height.toNat then some .image
      else if pageCount s.height.toNat ≤ s.page.toNat ∨ s.width.toNat ≤ s.col.toNat then some .index
      else if s.outLen.toNat ≤ s.page.toNat * s.width.toNat + s.col.toNat then some .outbound
      else none := by
  simp only [commandTests, packcolTests, firstRaised_cons, firstRaised_nil, Bool.or_eq_true, decide_eq_true_eq,
    State.imageMisfits, State.pageBeyond, State.colBeyond, State.colOverruns]
  rfl

/-- The tests of PACKPAGE in their order (41_pack R135). -/
theorem firstRaised_packpage (s : State) :
    firstRaised (commandTests .packpage s) =
      if s.imgLen.toNat ≠ s.width.toNat * s.height.toNat then some .image
      else if pageCount s.height.toNat ≤ s.page.toNat then some .index
      else if s.outLen.toNat < (s.page.toNat + 1) * s.width.toNat then some .outbound
      else none := by
  simp only [commandTests, packpageTests, firstRaised_cons, firstRaised_nil, decide_eq_true_eq, State.imageMisfits,
    State.pageBeyond, State.pageOverruns]
  rfl

/-- The tests of PACKIMG in their order (41_pack R136). -/
theorem firstRaised_packimg (s : State) :
    firstRaised (commandTests .packimg s) =
      if s.imgLen.toNat ≠ s.width.toNat * s.height.toNat then some .image
      else if s.outLen.toNat < pageCount s.height.toNat * s.width.toNat then some .outbound
      else none := by
  simp only [commandTests, packimgTests, firstRaised_cons, firstRaised_nil, decide_eq_true_eq, State.imageMisfits,
    State.imageOverruns]
  rfl

/-- A test that fails changes STATUS alone and leaves no transaction (20_memory R54). -/
theorem refuses_of_raised {i : Instr} {s : State} {k : Cause} (h : firstRaised (commandTests i s) = some k) :
    exec i s = .next (s.takeFault k) ∧ commandEvents i s = [] :=
  ⟨exec_of_raised h, commandEvents_of_raised h⟩

theorem exec_packcol_of_admitted {s : State} (h : PairAdmitted s s.page.toNat s.col.toNat) :
    exec .packcol s = .next (s.writeOut [s.cellWrite s.page.toNat s.col.toNat]).advance := by
  obtain ⟨himg, hpage, hcol, hout⟩ := h
  rw [State.pages] at hpage
  rw [State.outAddress] at hout
  refine exec_of_passed ?_ nofun
  rw [firstRaised_packcol, if_neg (not_not.2 himg), if_neg (not_or.2 ⟨hpage.not_ge, hcol.not_ge⟩),
    if_neg hout.not_ge]

theorem exec_packpage_of_fits {s : State} (himg : s.imgLen.toNat = s.width.toNat * s.height.toNat)
    (hpage : s.page.toNat < pageCount s.height.toNat) (hout : (s.page.toNat + 1) * s.width.toNat ≤ s.outLen.toNat) :
    exec .packpage s = .next (s.writeOut (s.pageWrites s.page.toNat)).advance := by
  rw [← commandWrites_packpage]
  refine exec_of_passed ?_ nofun
  rw [firstRaised_packpage, if_neg (not_not.2 himg), if_neg hpage.not_ge, if_neg hout.not_gt]

theorem packpage_refuses_of_overruns {s : State} (himg : s.imgLen.toNat = s.width.toNat * s.height.toNat)
    (hpage : s.page.toNat < pageCount s.height.toNat) (hout : s.outLen.toNat < (s.page.toNat + 1) * s.width.toNat) :
    exec .packpage s = .next (s.takeFault .outbound) ∧ commandEvents .packpage s = [] := by
  refine refuses_of_raised ?_
  rw [firstRaised_packpage, if_neg (not_not.2 himg), if_neg hpage.not_ge, if_pos hout]

theorem exec_packimg_of_fits {s : State} (himg : s.imgLen.toNat = s.width.toNat * s.height.toNat)
    (hout : pageCount s.height.toNat * s.width.toNat ≤ s.outLen.toNat) :
    exec .packimg s = .next (s.writeOut s.imageWrites).advance := by
  rw [← commandWrites_packimg]
  refine exec_of_passed ?_ nofun
  rw [firstRaised_packimg, if_neg (not_not.2 himg), if_neg hout.not_gt]

/-- Settles O12: the tests decide in their order, and the pair they let through is written. -/
theorem packcolDoesItsRule : Obligations.PackcolDoesItsRule := by
  unfold Obligations.PackcolDoesItsRule
  refine ⟨decode_encode .packcol, fun s => ⟨fun himg => ?image, fun himg hindex => ?index,
    fun himg hpage hcol hout => ?outbound, fun himg hpage hcol hout => ?completes⟩⟩
  case image => exact refuses_of_raised (by rw [firstRaised_packcol, if_pos himg])
  case index => exact refuses_of_raised (by rw [firstRaised_packcol, if_neg (not_not.2 himg), if_pos hindex])
  case outbound =>
    exact refuses_of_raised (by
      rw [firstRaised_packcol, if_neg (not_not.2 himg), if_neg (not_or.2 ⟨hpage.not_ge, hcol.not_ge⟩), if_pos hout])
  case completes =>
    rw [exec_packcol_of_admitted ⟨himg, hpage, hcol, hout⟩, cellWrite_eq]
    rfl

/-! ### OUT after the writes of a page and of an image -/

theorem read_writeAll_pageWrites (m : Memory 8) (s : State) (p : Nat) {c : Nat} (hc : c < s.width.toNat) :
    (m.writeAll (s.pageWrites p)).read (p * s.width.toNat + c) = packbyte s.imgAt s.height.toNat s.thr p c := by
  have hread := Memory.read_writeAll_mem (nodup_pageWrites s p) (mem_pageWrites.2 ⟨c, hc, rfl⟩) m
  rwa [cellWrite_eq] at hread

theorem read_writeAll_pageWrites_other (m : Memory 8) {s : State} {p a : Nat}
    (ha : a < p * s.width.toNat ∨ p * s.width.toNat + s.width.toNat ≤ a) :
    (m.writeAll (s.pageWrites p)).read a = m.read a := by
  refine Memory.read_writeAll_other (fun x hx => ?_) m
  obtain ⟨c, hc, rfl⟩ := mem_pageWrites.1 hx
  simp only [cellWrite_eq]
  omega

/-- Settles O13: the tests decide in their order, and the writes of the page stand at its `WIDTH` addresses. -/
theorem packpageDoesItsRule : Obligations.PackpageDoesItsRule := by
  unfold Obligations.PackpageDoesItsRule
  refine ⟨decode_encode .packpage, fun s => ⟨fun himg => ?image, fun himg hindex => ?index,
    fun himg hpage hout => ?outbound, fun himg hpage hout => ?completes⟩⟩
  case image => exact refuses_of_raised (by rw [firstRaised_packpage, if_pos himg])
  case index => exact refuses_of_raised (by rw [firstRaised_packpage, if_neg (not_not.2 himg), if_pos hindex])
  case outbound => exact packpage_refuses_of_overruns himg hpage hout
  case completes =>
    exact ⟨_, exec_packpage_of_fits himg hpage hout, rfl, fun c hc => read_writeAll_pageWrites s.out s _ hc,
      fun a ha => read_writeAll_pageWrites_other s.out ha⟩

/-- Values written to every address from 0 up to `N`. -/
theorem Memory.read_writeAll_range {w : Nat} (m : Memory w) (f : Nat → BitVec w) (N a : Nat) :
    (m.writeAll ((List.range N).map fun k => (k, f k))).read a = if a < N then f a else m.read a := by
  induction N with
  | zero => rfl
  | succ N ih =>
    rw [List.range_succ, List.map_append, Memory.writeAll_append, List.map_singleton, Memory.writeAll_cons,
      Memory.writeAll_nil, Memory.read_write, ih]
    by_cases ha : a = N
    · simp [ha]
    · simp only [ha, if_false, show a < N + 1 ↔ a < N by omega]

/-- The writes of the first `n` pages, in order. -/
def State.pagesWrites (s : State) (n : Nat) : List Host.Cell := (List.range n).flatMap s.pageWrites

theorem imageWrites_eq_pagesWrites (s : State) : s.imageWrites = s.pagesWrites s.pages := rfl

theorem pagesWrites_succ (s : State) (n : Nat) : s.pagesWrites (n + 1) = s.pagesWrites n ++ s.pageWrites n := by
  simp [State.pagesWrites, List.range_succ]

/-- The first `n` pages fill the addresses below `n * WIDTH`. -/
theorem pagesWrites_eq_map (s : State) (n : Nat) :
    s.pagesWrites n = (List.range (n * s.width.toNat)).map fun k =>
      (k, packbyte s.imgAt s.height.toNat s.thr (k / s.width.toNat) (k % s.width.toNat)) := by
  unfold State.pagesWrites State.pageWrites
  rw [flatMap_range_map_range]
  simp only [cellWrite_eq, Nat.div_add_mod']

theorem read_writeAll_pagesWrites (m : Memory 8) (s : State) (n a : Nat) :
    (m.writeAll (s.pagesWrites n)).read a =
      if a < n * s.width.toNat then
        packbyte s.imgAt s.height.toNat s.thr (a / s.width.toNat) (a % s.width.toNat)
      else m.read a := by
  rw [pagesWrites_eq_map]
  exact Memory.read_writeAll_range m _ _ a

/-! ### The samples read -/

/-- The addresses read for a pair: one for each row of the page that exists (41_pack R132). -/
theorem mem_cellReads {s : State} {p c a : Nat} :
    a ∈ s.cellReads p c ↔ ∃ i < 8, 8 * p + i < s.height.toNat ∧ a = (8 * p + i) * s.width.toNat + c := by
  simp [State.cellReads, State.imgAddress, and_assoc, eq_comm]

theorem cellReads_lt {s : State} {p c a : Nat} (hc : c < s.width.toNat) (ha : a ∈ s.cellReads p c) :
    a < s.width.toNat * s.height.toNat := by
  obtain ⟨i, -, hrow, rfl⟩ := mem_cellReads.1 ha
  rw [Nat.mul_comm s.width.toNat]
  exact address_lt hrow hc

/-- Settles O28: one read for each row that exists, below the end of the image, which is IMG_LEN. -/
theorem cellReadsAreTheRowsThatExist : Obligations.CellReadsAreTheRowsThatExist := by
  unfold Obligations.CellReadsAreTheRowsThatExist
  intro s p c _ hc
  refine ⟨length_cellReads s p c, fun a => mem_cellReads, fun a => cellReads_lt hc, fun hfit a ha => ?_⟩
  have hlen : s.imgLen.toNat = s.width.toNat * s.height.toNat := by simpa [State.imageMisfits] using hfit
  rw [hlen]
  exact cellReads_lt hc ha

/-- The sample at address `a` belongs to row `a / WIDTH`, a row of page `a / WIDTH / 8`. -/
theorem mem_imageReads_of_lt {s : State} {a : Nat} (ha : a < s.width.toNat * s.height.toNat) : a ∈ s.imageReads := by
  have hwidth : 0 < s.width.toNat := Nat.pos_of_mul_pos_right (Nat.zero_lt_of_lt ha)
  have hrow : a / s.width.toNat < s.height.toNat := Nat.div_lt_of_lt_mul ha
  simp only [State.imageReads, State.pageReads, List.mem_flatMap, List.mem_range, mem_cellReads]
  refine ⟨a / s.width.toNat / 8, lt_pageCount_iff.2 (by omega), a % s.width.toNat, Nat.mod_lt _ hwidth,
    a / s.width.toNat % 8, Nat.mod_lt _ (by decide), ?_⟩
  rw [Nat.div_add_mod, Nat.div_add_mod']
  exact ⟨hrow, rfl⟩

/-- The reads of PACKIMG are the addresses of the image, each once: they hold all of them and are no more. -/
theorem imageReads_perm_range (s : State) : s.imageReads.Perm (List.range (s.width.toNat * s.height.toNat)) := by
  have hall : List.range (s.width.toNat * s.height.toNat) ⊆ s.imageReads := fun a ha =>
    mem_imageReads_of_lt (List.mem_range.1 ha)
  have hlength : s.imageReads.length ≤ (List.range (s.width.toNat * s.height.toNat)).length := by
    rw [length_imageReads, List.length_range]
  exact ((List.subperm_of_subset List.nodup_range hall).perm_of_length_le hlength).symm

/-- Settles O14: the tests decide in their order, the writes fill the addresses below `pageCount * WIDTH`, and the
reads are the addresses of the image in another order. -/
theorem packimgDoesItsRule : Obligations.PackimgDoesItsRule := by
  unfold Obligations.PackimgDoesItsRule
  refine ⟨decode_encode .packimg, fun s => ⟨fun himg => ?image, fun himg hout => ?outbound,
    fun himg hout => ⟨_, exec_packimg_of_fits himg hout, rfl, ?packed, fun a ha => ?frame, fun a => ?reads⟩⟩⟩
  case image => exact refuses_of_raised (by rw [firstRaised_packimg, if_pos himg])
  case outbound => exact refuses_of_raised (by rw [firstRaised_packimg, if_neg (not_not.2 himg), if_pos hout])
  case packed =>
    rw [packimage_eq_map]
    refine List.map_congr_left fun a ha => ?_
    exact (read_writeAll_pagesWrites s.out s _ a).trans (if_pos (List.mem_range.1 ha))
  case frame => exact (read_writeAll_pagesWrites s.out s _ a).trans (if_neg ha.not_gt)
  case reads => simp [(imageReads_perm_range s).count_eq, List.nodup_range.count]

/-- Settles O18: no pages or pages of no bytes, and an IMG_LEN of 0 fits the empty image. -/
theorem emptyImagePacksToNothing : Obligations.EmptyImagePacksToNothing := by
  unfold Obligations.EmptyImagePacksToNothing
  refine ⟨fun img W H t h => ?_, rfl, fun _ _ _ _ => rfl, fun s hempty hlen => ?_⟩
  · rw [packimage_eq_map]
    rcases h with rfl | rfl <;> simp [pageCount]
  · have hdim : s.width.toNat = 0 ∨ s.height.toNat = 0 := hempty.imp (congrArg BitVec.toNat) (congrArg BitVec.toNat)
    have himg : s.imgLen.toNat = s.width.toNat * s.height.toNat := by
      rw [Nat.mul_eq_zero.2 hdim, hlen]
      rfl
    have hbytes : pageCount s.height.toNat * s.width.toNat = 0 :=
      Nat.mul_eq_zero.2 (hdim.symm.imp_left fun h => by rw [h]; rfl)
    have hwrites : s.imageWrites = [] := by
      rw [imageWrites_eq_pagesWrites, pagesWrites_eq_map, State.pages, hbytes]
      rfl
    have hout : pageCount s.height.toNat * s.width.toNat ≤ s.outLen.toNat := hbytes ▸ Nat.zero_le _
    rw [exec_packimg_of_fits himg hout, hwrites]
    refine ⟨rfl, ?_⟩
    rw [outWrites_commandEvents, commandWrites_packimg, hwrites, List.map_nil]
    rw [firstRaised_packimg, if_neg (not_not.2 himg), if_neg hout.not_gt]

/-! ### The laws of R129 and the bounds of R130 -/

/-- Writes to different addresses, made again, change nothing. -/
theorem Memory.read_writeAll_twice {w : Nat} {ws : List (Nat × BitVec w)} (hnodup : (ws.map Prod.fst).Nodup)
    (m : Memory w) (a : Nat) : ((m.writeAll ws).writeAll ws).read a = (m.writeAll ws).read a := by
  by_cases ha : ∃ x ∈ ws, x.1 = a
  · obtain ⟨x, hx, rfl⟩ := ha
    rw [Memory.read_writeAll_mem hnodup hx, Memory.read_writeAll_mem hnodup hx]
  · exact Memory.read_writeAll_other (fun x hx hxa => ha ⟨x, hx, hxa⟩) _

/-- Settles O24: the second PACKIMG passes the tests of the first and writes the same bytes; the other laws are
read off the bits. -/
theorem lawsOfTheFunctions : Obligations.LawsOfTheFunctions := by
  unfold Obligations.LawsOfTheFunctions
  refine ⟨fun s t h hfault => ?again, fun img img' H t p c => packbyte_congr t,
    fun img H t t' p c i hle hbit => ?monotone, fun img H t p c i => packbyte_getLsbD_of_nrows_le img t c⟩
  case again =>
    obtain ⟨k, -, rfl⟩ | ⟨hend, -⟩ | ⟨-, hpass, rfl⟩ := exec_cases h
    · exact absurd (statusFaulted_fault k s.status) (Bool.eq_false_iff.1 hfault)
    · cases hend
    · have hpass' : firstRaised (commandTests .packimg (commandEffect .packimg s).advance) = none := hpass
      refine ⟨_, exec_of_passed hpass' nofun, fun a => ?_⟩
      rw [State.advance_out, commandEffect_out]
      exact Memory.read_writeAll_twice (nodup_commandWrites .packimg s) s.out a
  case monotone =>
    rcases Nat.lt_or_ge i 8 with hi | hi
    · rw [packbyte_getLsbD_iff img H _ p c hi] at hbit ⊢
      exact hbit.imp_right hle.trans
    · rw [BitVec.getLsbD_of_ge _ _ hi] at hbit
      cases hbit

/-- Settles O29: a dimension is at most 65535, so there are at most 8192 pages. -/
theorem nothingWraps : Obligations.NothingWraps := by
  unfold Obligations.NothingWraps
  intro s
  have hw : s.width.toNat ≤ 65535 := Nat.le_of_lt_succ s.width.isLt
  have hh : s.height.toNat ≤ 65535 := Nat.le_of_lt_succ s.height.isLt
  have hpages := pageCount_half_le s.height
  have hbytes : ∀ n ≤ pageCount s.height.toNat, n * s.width.toNat ≤ 8192 * 65535 := fun n hn =>
    Nat.mul_le_mul (hn.trans hpages) hw
  refine ⟨Nat.mul_le_mul hw hh, hpages, hbytes _ le_rfl, fun row c hrow hc => ?_, fun p hp =>
    ⟨hbytes _ hp, fun i hi => by omega, fun c hc => ?_⟩⟩
  · have := Nat.mul_le_mul (show row ≤ 65534 by omega) hw
    unfold State.imgAddress
    omega
  · exact Nat.le_of_lt_succ ((address_lt hp hc).trans_le (hbytes _ le_rfl))

end Sys2Proof.Machine

/-! ### What the writes of a PACK command depend on -/

namespace Sys2Proof.Machine

/-- Two states agree on all that the writes of a PACK command depend on, PAGE and COL apart (41_pack R139). -/
structure SameImage (s s' : State) : Prop where
  thr : s'.thr = s.thr
  width : s'.width = s.width
  height : s'.height = s.height
  imgLen : s'.imgLen = s.imgLen
  outLen : s'.outLen = s.outLen
  samples : ∀ a < s.imgLen.toNat, s'.img.read a = s.img.read a

/-- The samples of an admitted pair lie below IMG_LEN, where the two images agree. -/
theorem SameImage.cellWrite_congr {s s' : State} (h : SameImage s s') {p c : Nat} (hpair : PairAdmitted s p c) :
    s'.cellWrite p c = s.cellWrite p c := by
  have hsample : ∀ i < nrows p s.height.toNat, s'.imgAt (8 * p + i) c = s.imgAt (8 * p + i) c := by
    intro i hi
    have hread : s.imgAddress (8 * p + i) c ∈ s.cellReads p c :=
      mem_cellReads.2 ⟨i, hi.trans_le (nrows_le_eight ..), by unfold nrows at hi; omega, rfl⟩
    rw [State.imgAt, State.imgAddress, h.width]
    exact h.samples _ (hpair.read_lt hread)
  rw [cellWrite_eq, cellWrite_eq, h.width, h.height, h.thr, packbyte_congr s.thr hsample]

/-- With the same tests and the same pairs, the same writes are made. -/
theorem SameImage.outWrites_congr {s s' : State} (h : SameImage s s') {i : Instr}
    (htests : firstRaised (commandTests i s') = firstRaised (commandTests i s))
    (hpairs : commandPairs i s' = commandPairs i s) :
    outWrites (commandEvents i s') = outWrites (commandEvents i s) := by
  cases hr : firstRaised (commandTests i s) with
  | some k => rw [commandEvents_of_raised hr, commandEvents_of_raised (htests.trans hr)]
  | none =>
    have hwrites : commandWrites i s' = commandWrites i s := by
      rw [commandWrites, hpairs]
      exact List.map_congr_left fun x hx => h.cellWrite_congr (commandPairs_admitted hr hx)
    rw [outWrites_commandEvents hr, outWrites_commandEvents (htests.trans hr), hwrites]

/-- Settles O15: a write belongs to an admitted pair, and tests, pairs and bytes are functions of the operands
named. -/
theorem packWritesArePure : Obligations.PackWritesArePure := by
  unfold Obligations.PackWritesArePure
  refine ⟨fun i s x hx => ?_, fun s s' hthr hwidth hheight himgLen houtLen hsamples => ?_⟩
  · obtain ⟨hpass, p, c, hpc, ⟨a, -, hread⟩ | hwrite⟩ := mem_commandEvents (mem_outWrites.1 hx)
    · cases hread
    · obtain ⟨-, hpage, hcol, hout⟩ := commandPairs_admitted hpass hpc
      obtain ⟨haddr, hbyte⟩ := BusEvent.outWrite.inj hwrite
      refine ⟨p, c, hpage, hcol, ?_, ?_⟩
      · rw [haddr]
        exact toNat_word_of_lt (hout.trans s.outLen.isLt)
      · rw [hbyte, cellWrite_eq]
        rfl
  · have hsame : SameImage s s' := ⟨hthr, hwidth, hheight, himgLen, houtLen, hsamples⟩
    refine ⟨hsame.outWrites_congr ?_ ?_, fun hpage =>
      ⟨hsame.outWrites_congr ?_ ?_, fun hcol => hsame.outWrites_congr ?_ ?_⟩⟩
    · simp only [firstRaised_packimg, hwidth, hheight, himgLen, houtLen]
    · simp only [commandPairs, State.pages, hwidth, hheight]
    · simp only [firstRaised_packpage, hwidth, hheight, himgLen, houtLen, hpage]
    · simp only [commandPairs, hwidth, hpage]
    · simp only [firstRaised_packcol, hwidth, hheight, himgLen, houtLen, hpage, hcol]
    · simp only [commandPairs, hpage, hcol]

end Sys2Proof.Machine

/-! ### Commands one after another -/

namespace Sys2Proof.Machine

theorem runCommands_of_stopped {s : State} (h : s.stopped = true) (is : List Instr) : runCommands is s = .next s := by
  cases is with
  | nil => rfl
  | cons i is => rw [runCommands, if_pos h]

theorem runCommands_cons {i : Instr} {s t : State} (h : s.stopped = false) (hexec : exec i s = .next t)
    (is : List Instr) : runCommands (i :: is) s = runCommands is t := by
  rw [runCommands, h, hexec]
  rfl

theorem runCommands_append {is : List Instr} : ∀ {s t : State} (js : List Instr),
    runCommands is s = .next t → runCommands (is ++ js) s = runCommands js t := by
  induction is with
  | nil =>
    intro s t js h
    rw [Host.Outcome.next.inj h, List.nil_append]
  | cons i is ih =>
    intro s t js h
    by_cases hs : s.stopped = true
    · rw [runCommands_of_stopped hs] at h
      obtain rfl := Host.Outcome.next.inj h
      rw [runCommands_of_stopped hs, runCommands_of_stopped hs]
    · rw [Bool.not_eq_true] at hs
      obtain ⟨u, hexec⟩ := exec_isNext i s
      rw [runCommands_cons hs hexec] at h
      rw [List.cons_append, runCommands_cons hs hexec, ih js h]

/-- Two commands in a row, the first of which leaves the block running. -/
theorem runCommands_pair {i j : Instr} {s t u : State} (hs : s.stopped = false) (hj : exec j t = .next u)
    (hi : exec i s = .next t) (ht : t.stopped = false) : runCommands [i, j] s = .next u := by
  rw [runCommands_cons hs hi, runCommands_cons ht hj]
  rfl

/-- A dimension bounds the values an immediate takes below it. -/
theorem toNat_half_of_lt {n : Nat} {d : Half} (h : n < d.toNat) : (BitVec.ofNat 16 n).toNat = n := by
  rw [BitVec.toNat_ofNat, Nat.mod_eq_of_lt (h.trans d.isLt)]

/-! ### SETCOL and PACKCOL for the columns of a page -/

/-- The state `s` with the columns `cs` of its page packed by SETCOL and PACKCOL, in that order (41_pack R138). -/
def State.afterColumns (s : State) (cs : List Nat) : State :=
  { s with
    pc := s.pc + BitVec.ofNat 32 (2 * cs.length)
    col := (cs.getLast?.map (BitVec.ofNat 16)).getD s.col
    out := s.out.writeAll (cs.map (s.cellWrite s.page.toNat)) }

/-- The state after SETCOL `c`. -/
def State.atColumn (s : State) (c : Nat) : State := (s.setCol (BitVec.ofNat 16 c)).advance

theorem afterColumns_nil (s : State) : s.afterColumns [] = s := by
  simp [State.afterColumns]

theorem afterColumns_cons (s : State) (c : Nat) (cs : List Nat) :
    s.afterColumns (c :: cs) = (s.afterColumns [c]).afterColumns cs := by
  have hpc : s.pc + BitVec.ofNat 32 (2 * (cs.length + 1)) = s.pc + 2#32 + BitVec.ofNat 32 (2 * cs.length) := by
    rw [BitVec.add_assoc, BitVec.ofNat_add_ofNat, Nat.mul_succ, Nat.add_comm]
  have hcol : ((c :: cs).getLast?.map (BitVec.ofNat 16)).getD s.col =
      (cs.getLast?.map (BitVec.ofNat 16)).getD (BitVec.ofNat 16 c) := by
    rw [List.getLast?_cons]
    cases cs.getLast? <;> rfl
  rw [State.afterColumns, hcol, List.length_cons, hpc]
  rfl

/-- SETCOL and PACKCOL for one column. -/
theorem afterColumns_singleton {s : State} {c : Nat} (hc : (BitVec.ofNat 16 c).toNat = c) :
    s.afterColumns [c] =
      ((s.atColumn c).writeOut [s.cellWrite s.page.toNat (BitVec.ofNat 16 c).toNat]).advance := by
  have hpc : s.pc + BitVec.ofNat 32 (2 * [c].length) = s.pc + 1#32 + 1#32 := (BitVec.add_assoc s.pc 1#32 1#32).symm
  rw [State.afterColumns, hpc, hc]
  rfl

theorem runCommands_packColumnNumber {s : State} {c : Nat} (hrun : s.stopped = false)
    (h : PairAdmitted s s.page.toNat c) : runCommands (packColumnNumber c) s = .next (s.afterColumns [c]) := by
  obtain ⟨himg, hpage, hcol, hout⟩ := h
  have hc : (BitVec.ofNat 16 c).toNat = c := toNat_half_of_lt hcol
  have hpack := exec_packcol_of_admitted (s := s.atColumn c) (hc.symm ▸ ⟨himg, hpage, hcol, hout⟩)
  rw [afterColumns_singleton hc]
  exact runCommands_pair hrun hpack rfl hrun

theorem runCommands_columns (cs : List Nat) : ∀ {s : State}, s.stopped = false →
    (∀ c ∈ cs, PairAdmitted s s.page.toNat c) →
    runCommands (cs.flatMap packColumnNumber) s = .next (s.afterColumns cs) := by
  induction cs with
  | nil =>
    intro s _ _
    rw [afterColumns_nil]
    rfl
  | cons c cs ih =>
    intro s hrun h
    obtain ⟨hhead, htail⟩ := List.forall_mem_cons.1 h
    have htail' : ∀ d ∈ cs, PairAdmitted (s.afterColumns [c]) (s.afterColumns [c]).page.toNat d := fun d hd =>
      have ⟨himg, hpage, hcol, hout⟩ := htail d hd
      ⟨himg, hpage, hcol, hout⟩
    rw [List.flatMap_cons, runCommands_append _ (runCommands_packColumnNumber hrun hhead),
      afterColumns_cons s c cs]
    exact ih (s := s.afterColumns [c]) hrun htail'

/-- Settles O16: the columns' writes are those of the page in another order, and they go to different addresses. -/
theorem packpageIsItsColumns : Obligations.PackpageIsItsColumns := by
  unfold Obligations.PackpageIsItsColumns
  intro s columns hrun hperm himg hpage hout
  have hpairs : ∀ c ∈ columns, PairAdmitted s s.page.toNat c := fun c hc =>
    have hcol : c < s.width.toNat := List.mem_range.1 (hperm.mem_iff.1 hc)
    ⟨himg, hpage, hcol, (address_lt (Nat.lt_succ_self _) hcol).trans_le hout⟩
  refine ⟨_, _, exec_packpage_of_fits himg hpage hout, runCommands_columns columns hrun hpairs,
    fun a => ?reads, ?rest⟩
  case reads => exact Memory.read_writeAll_perm (hperm.map _) (nodup_pageWrites s _) s.out a
  case rest =>
    rw [State.afterColumns, hperm.length_eq, List.length_range]
    rfl

/-! ### SETPAGE and PACKPAGE for the pages of an image -/

/-- A page index fits PAGE. -/
theorem toNat_pageIndex {p : Nat} {h : Half} (hp : p < pageCount h.toNat) : (BitVec.ofNat 16 p).toNat = p := by
  have hpages := pageCount_half_le h
  rw [BitVec.toNat_ofNat, Nat.mod_eq_of_lt (by omega)]

/-- The state after SETPAGE `p`. -/
def State.atPage (s : State) (p : Nat) : State := (s.setPage (BitVec.ofNat 16 p)).advance

/-- The state `s` with its first `n` pages packed by SETPAGE and PACKPAGE (41_pack R137). -/
def State.afterPages (s : State) (n : Nat) : State :=
  { s with
    pc := s.pc + BitVec.ofNat 32 (2 * n)
    page := if n = 0 then s.page else BitVec.ofNat 16 (n - 1)
    out := s.out.writeAll (s.pagesWrites n) }

theorem afterPages_zero (s : State) : s.afterPages 0 = s := by
  simp [State.afterPages, State.pagesWrites]

/-- SETPAGE and PACKPAGE for one page more. -/
theorem afterPages_succ {s : State} {n : Nat} (hn : (BitVec.ofNat 16 n).toNat = n) :
    s.afterPages (n + 1) =
      (((s.afterPages n).atPage n).writeOut (s.pageWrites (BitVec.ofNat 16 n).toNat)).advance := by
  have hpc : s.pc + BitVec.ofNat 32 (2 * (n + 1)) = s.pc + BitVec.ofNat 32 (2 * n) + 1#32 + 1#32 := by
    rw [BitVec.add_assoc, BitVec.add_assoc, BitVec.ofNat_add_ofNat, BitVec.ofNat_add_ofNat, Nat.mul_succ]
  rw [State.afterPages, hpc, pagesWrites_succ, Memory.writeAll_append, hn]
  rfl

theorem runCommands_packPages {s : State} (hrun : s.stopped = false)
    (himg : s.imgLen.toNat = s.width.toNat * s.height.toNat) {n : Nat} (hn : n ≤ pageCount s.height.toNat)
    (hout : n * s.width.toNat ≤ s.outLen.toNat) : runCommands (packPages n) s = .next (s.afterPages n) := by
  induction n with
  | zero =>
    rw [afterPages_zero]
    rfl
  | succ n ih =>
    have hpage : (BitVec.ofNat 16 n).toNat = n := toNat_pageIndex hn
    have hpack := exec_packpage_of_fits (s := (s.afterPages n).atPage n) himg (hpage.symm ▸ hn) (hpage.symm ▸ hout)
    have hbefore : n * s.width.toNat ≤ s.outLen.toNat := (Nat.mul_le_mul_right _ n.le_succ).trans hout
    rw [packPages_succ, runCommands_append _ (ih (Nat.le_of_succ_le hn) hbefore), afterPages_succ hpage]
    exact runCommands_pair (s := s.afterPages n) hrun hpack rfl hrun

/-- Pages from the first that does not fit: it raises OUTBOUND, and the block is stopped. -/
theorem runCommands_packPages_overrun {s : State} (hrun : s.stopped = false)
    (himg : s.imgLen.toNat = s.width.toNat * s.height.toNat) {n q : Nat} (hn : n ≤ pageCount s.height.toNat)
    (hq : q < n) (hfits : q * s.width.toNat ≤ s.outLen.toNat) (hover : s.outLen.toNat < (q + 1) * s.width.toNat) :
    runCommands (packPages n) s = .next (((s.afterPages q).atPage q).takeFault .outbound) := by
  have hpage : (BitVec.ofNat 16 q).toNat = q := toNat_pageIndex (hq.trans_le hn)
  obtain ⟨m, rfl⟩ := Nat.exists_eq_add_of_le hq
  have hsplit : packPages (q + 1 + m) =
      packPages q ++ (packPageNumber q ++ (((List.range m).map (q + 1 + ·)).flatMap packPageNumber)) := by
    rw [packPages, List.range_add, List.flatMap_append, ← packPages, packPages_succ, List.append_assoc]
  have hpack := (packpage_refuses_of_overruns (s := (s.afterPages q).atPage q) himg
    (hpage.symm ▸ hq.trans_le hn) (hpage.symm ▸ hover)).1
  have hraise : runCommands (packPageNumber q) (s.afterPages q) = _ := runCommands_pair hrun hpack rfl hrun
  rw [hsplit, runCommands_append _ (runCommands_packPages hrun himg (hq.le.trans hn) hfits),
    runCommands_append _ hraise, runCommands_of_stopped (State.takeFault_stopped ..)]

/-- Fault entry sets CAUSE to the code of the cause (60_exceptions R171). -/
@[simp] theorem State.takeFault_cause (k : Cause) (s : State) : (s.takeFault k).cause = k.code := by
  apply BitVec.eq_of_getLsbD_eq
  intro i hi
  cases k <;> interval_cases i <;> simp [State.cause, statusFaulted, Cause.code]

/-- Settles O17: the writes of the pages are the writes of the image, and the first page that does not fit is
`OUT_LEN / WIDTH`. -/
theorem packimgIsItsPages : Obligations.PackimgIsItsPages := by
  unfold Obligations.PackimgIsItsPages
  refine fun s hrun himg => ⟨fun hout => ?_, fun hover => ?_⟩
  · exact ⟨_, _, exec_packimg_of_fits himg hout, runCommands_packPages hrun himg le_rfl hout, rfl, rfl⟩
  · have hwidth : 0 < s.width.toNat := Nat.pos_of_mul_pos_left (Nat.zero_lt_of_lt hover)
    have hq : s.outLen.toNat / s.width.toNat < pageCount s.height.toNat := (Nat.div_lt_iff_lt_mul hwidth).2 hover
    have hfits : s.outLen.toNat / s.width.toNat * s.width.toNat ≤ s.outLen.toNat := Nat.div_mul_le_self ..
    have hnext : s.outLen.toNat < (s.outLen.toNat / s.width.toNat + 1) * s.width.toNat :=
      (Nat.div_lt_iff_lt_mul hwidth).1 (Nat.lt_succ_self _)
    exact ⟨_, _, runCommands_packPages_overrun hrun himg le_rfl hq hfits hnext, hq, hfits, hnext,
      statusFaulted_fault .., State.takeFault_cause .., toNat_pageIndex hq, read_writeAll_pagesWrites s.out s _⟩

end Sys2Proof.Machine

/-! ### The bits of a table row as a word -/

namespace Sys2Proof

theorem Decoded.toOption_eq_some_iff {d : Decoded} {i : Instr} : d.toOption = some i ↔ d = .command i := by
  cases d <;> simp [Decoded.toOption]

/-- The bits of a table row of 32 bits are read back from their four bytes as the word. -/
theorem decode_tableWord {w : Nat} {i : Instr} (h : decodeTableWord 32 w = some i) :
    decode (tableWord 32 w) = .command i := by
  have hbytes : decodeBytes (bytesOfWord (tableWord 32 w)) = (decode (tableWord 32 w), []) := by
    simpa using decodeBytes_bytesOfWord_append (tableWord 32 w) []
  rw [decodeTableWord, if_pos (Nat.mod_lt w (by decide)), hbytes] at h
  exact Decoded.toOption_eq_some_iff.1 h

end Sys2Proof

/-! ### The sequencer: when the block steps, and what it runs -/

namespace Sys2Proof.Machine

theorem State.stopped_iff {s : State} : s.stopped = true ↔ s.halt = true ∨ s.fault = true := Bool.or_eq_true_iff

theorem State.stopped_eq_false_iff {s : State} : s.stopped = false ↔ s.halt = false ∧ s.fault = false :=
  Bool.or_eq_false_iff

theorem State.canFetch_iff {s : State} : s.canFetch = true ↔ s.pc.toNat < s.progLen.toNat := decide_eq_true_iff

/-- A running block always steps: a fault of the sequencer is a next state, and no command is refused. -/
theorem step_isNext {s : State} (hrun : s.stopped = false) : ∃ t, step s = .next t := by
  cases hfetch : s.canFetch with
  | false => exact ⟨_, step_of_noFetch hrun hfetch⟩
  | true =>
    cases hdecode : decode s.fetchWord with
    | illegal why => exact ⟨_, step_of_illegal hrun hfetch hdecode⟩
    | command i =>
      rw [step_of_command hrun hfetch hdecode]
      exact exec_isNext i s

theorem step_eq_stopped_iff {s : State} : step s = .fault .stopped ↔ s.stopped = true := by
  refine ⟨fun h => ?_, step_of_stopped⟩
  by_contra hrun
  obtain ⟨t, ht⟩ := step_isNext (Bool.eq_false_of_not_eq_true hrun)
  rw [ht] at h
  cases h

/-- Settles O38: the sequencer's two tests let the decoded command through. -/
theorem stepRunsTheDecodedCommand : Obligations.StepRunsTheDecodedCommand := by
  unfold Obligations.StepRunsTheDecodedCommand
  intro s i hhalt hfault hpc hdecode
  exact step_of_command (State.stopped_eq_false_iff.2 ⟨hhalt, hfault⟩) (State.canFetch_iff.2 hpc) hdecode

/-- Settles O37: a running block always steps. -/
theorem stepHasNextUnlessStopped : Obligations.StepHasNextUnlessStopped := by
  unfold Obligations.StepHasNextUnlessStopped
  exact fun s => ⟨step_eq_stopped_iff.trans State.stopped_iff, fun hhalt hfault =>
    step_isNext (State.stopped_eq_false_iff.2 ⟨hhalt, hfault⟩)⟩

/-- Settles O11: END sets HALT, which stops the block, and reset clears STATUS. -/
theorem endHaltsTheBlock : Obligations.EndHaltsTheBlock := by
  unfold Obligations.EndHaltsTheBlock
  exact ⟨decode_encode .endRun, fun s => ⟨s.markHalted, rfl, rfl, statusHalted_halt s.status,
    State.markHalted_fault s, State.markHalted_cause s, step_of_stopped (State.markHalted_stopped s), applyReset_stopped _⟩⟩

/-! ### The placed command -/

theorem State.placeCommand_status (s : State) (w : Word) :
    (s.placeCommand w).status = if s.stopped then 0x00#8 else s.status := rfl

@[simp] theorem State.placeCommand_stopped (s : State) (w : Word) : (s.placeCommand w).stopped = false := by
  cases hs : s.stopped with
  | true =>
    have hstatus : (s.placeCommand w).status = 0x00#8 := by rw [State.placeCommand_status, if_pos hs]
    simp [State.stopped, State.halt, State.fault, hstatus]
  | false =>
    rw [← hs]
    exact State.stopped_of_status_eq (by simp [State.placeCommand_status, hs])

@[simp] theorem State.placeCommand_canFetch (s : State) (w : Word) : (s.placeCommand w).canFetch = true :=
  State.canFetch_iff.2 (s.placeCommand_pc_lt w)

@[simp] theorem State.placeCommand_fetchWord (s : State) (w : Word) : (s.placeCommand w).fetchWord = w :=
  Memory.read_write_same ..

/-- Settles O39: placing a word leaves the block running, with the word where it fetches. -/
theorem placedWordRunsNext : Obligations.PlacedWordRunsNext := by
  unfold Obligations.PlacedWordRunsNext
  intro s w i h
  refine step_of_command (State.placeCommand_stopped s _) (State.placeCommand_canFetch s _) ?_
  rw [State.placeCommand_fetchWord]
  exact decode_tableWord h

/-! ### The end of a run -/

theorem core_run_of_next {s t : State} (h : step s = .next t) (k : Nat) : core.run (k + 1) s = core.run k t := by
  simp only [Host.Core.run, show core.step s = .next t from h]

/-- A step stops the block, or leaves fewer command words from PC on. -/
theorem exists_core_run_stopped (n : Nat) : ∀ s : State, s.progLen.toNat - s.pc.toNat < n →
    ∃ k ≤ n, ∃ t : State, core.run k s = .next t ∧ t.stopped = true := by
  induction n with
  | zero => exact fun s hlt => absurd hlt (Nat.not_lt_zero _)
  | succ n ih =>
    intro s hlt
    cases hs : s.stopped with
    | true => exact ⟨0, Nat.zero_le _, s, rfl, hs⟩
    | false =>
      obtain ⟨t, ht⟩ := step_isNext hs
      obtain ⟨hstop, -⟩ | ⟨-, hpc, hle⟩ := pcCountsCompletedCommands s t ht
      · exact ⟨1, by omega, t, core_run_of_next ht 0, hstop⟩
      · obtain ⟨k, hk, u, hrun, hstop⟩ := ih t (by rw [(step_sameLaunch ht).progLen]; omega)
        exact ⟨k + 1, by omega, u, (core_run_of_next ht k).trans hrun, hstop⟩

/-- Settles O41, by induction on the number of command words from PC on. -/
theorem everyRunEnds : Obligations.EveryRunEnds := by
  unfold Obligations.EveryRunEnds
  exact fun s => exists_core_run_stopped _ s (Nat.lt_succ_self _)

theorem exists_test_of_firstRaised {tests : List Test} {k : Cause} (h : firstRaised tests = some k) :
    ∃ x ∈ tests, x.cause = k := by
  induction tests with
  | nil => cases h
  | cons x rest ih =>
    rw [firstRaised_cons] at h
    split at h
    · exact ⟨x, List.mem_cons_self, Option.some.inj h⟩
    · obtain ⟨y, hy, hcause⟩ := ih h
      exact ⟨y, List.mem_cons_of_mem x hy, hcause⟩

/-- FETCH is the sequencer's alone (60_exceptions R162). -/
theorem ne_fetch_of_commandTests {i : Instr} {s : State} {k : Cause} (h : firstRaised (commandTests i s) = some k) :
    k ≠ .fetch := by
  obtain ⟨x, hx, rfl⟩ := exists_test_of_firstRaised h
  have hcauses : ∀ y ∈ commandTests i s, y.cause ≠ .fetch := by
    cases i <;> simp [commandTests, packcolTests, packpageTests, packimgTests]
  exact hcauses x hx

/-- How a step leaves the run: it took a fault, FETCH exactly where there was nothing to fetch, or it ran the END at
PC, or STATUS is as before. -/
theorem step_end_cases {s t : State} (h : step s = .next t) :
    (∃ k, t = s.takeFault k ∧ (k = .fetch ↔ s.canFetch = false)) ∨
      (decode s.fetchWord = .command .endRun ∧ t = s.markHalted) ∨ t.status = s.status := by
  obtain ⟨-, ⟨hfetch, rfl⟩ | ⟨hfetch, -, rfl⟩ | ⟨hfetch, i, hdecode, hexec⟩⟩ := step_cases h
  · exact .inl ⟨.fetch, rfl, by simp [hfetch]⟩
  · exact .inl ⟨.illegal, rfl, by simp [hfetch]⟩
  · obtain ⟨k, hraised, rfl⟩ | ⟨rfl, rfl⟩ | ⟨-, -, rfl⟩ := exec_cases hexec
    · exact .inl ⟨k, rfl, by simp [hfetch, ne_fetch_of_commandTests hraised]⟩
    · exact .inr (.inl ⟨hdecode, rfl⟩)
    · exact .inr (.inr (by simp))

@[simp] theorem State.takeFault_fault (k : Cause) (s : State) : (s.takeFault k).fault = true :=
  statusFaulted_fault k s.status

theorem Cause.code_eq_one_iff {k : Cause} : k.code = 1#3 ↔ k = .fetch := by
  cases k <;> decide

/-- Among the values STATUS takes, 0x01 is the one with HALT set (10_state R28). -/
theorem State.endedWell_iff {s : State} (hlegal : s.statusLegal) :
    s.endedWell ↔ s.halt = true ∧ s.fault = false := by
  have hvalues : ∀ b ∈ legalStatuses, b = 0x01#8 ↔ b.getLsbD 0 = true ∧ b.getLsbD 1 = false := by decide
  exact hvalues s.status hlegal

theorem decode_at_pc_of_endedWell {s t : State} (hlegal : s.statusLegal) (h : step s = .next t) (hend : t.endedWell) :
    t.pc = s.pc ∧ decode (t.prog.read t.pc.toNat) = .command .endRun := by
  obtain ⟨hhalt, hfault⟩ := (State.endedWell_iff (step_statusLegal hlegal h)).1 hend
  obtain ⟨k, rfl, -⟩ | ⟨hdecode, rfl⟩ | hstatus := step_end_cases h
  · rw [State.takeFault_fault] at hfault
    cases hfault
  · exact ⟨rfl, hdecode⟩
  · rw [State.halt_of_status_eq hstatus, (State.stopped_eq_false_iff.1 (step_cases h).1).1] at hhalt
    cases hhalt

theorem takeFault_of_endedBadly {s t : State} (h : step s = .next t) (hend : t.endedBadly) :
    ∃ k, t = s.takeFault k ∧ (k = .fetch ↔ s.canFetch = false) := by
  have hfault : s.fault = false := (State.stopped_eq_false_iff.1 (step_cases h).1).2
  obtain hfaulted | ⟨-, rfl⟩ | hstatus := step_end_cases h
  · exact hfaulted
  · rw [State.endedBadly, State.markHalted_fault, hfault] at hend
    cases hend
  · rw [State.endedBadly, State.fault_of_status_eq hstatus, hfault] at hend
    cases hend

/-- Settles O42: a step that ends the run ran the END at PC or took a fault, FETCH only at PROG_LEN. -/
theorem endOfRunIsAtPc : Obligations.EndOfRunIsAtPc := by
  unfold Obligations.EndOfRunIsAtPc
  rintro s t ⟨hlegal, hpc, -⟩ h
  refine ⟨decode_at_pc_of_endedWell hlegal h, fun hend => ?_, fun hwell hbad => ?_⟩
  · obtain ⟨k, rfl, hk⟩ := takeFault_of_endedBadly h hend
    have hcause : (s.takeFault k).cause = 1#3 ↔ ¬ s.pc.toNat < s.progLen.toNat := by
      rw [State.takeFault_cause, Cause.code_eq_one_iff, hk, ← State.canFetch_iff, Bool.not_eq_true]
    exact ⟨rfl, fun hfetch => BitVec.eq_of_toNat_eq (Nat.le_antisymm hpc (Nat.not_lt.1 (hcause.1 hfetch))),
      fun hother => not_not.1 (mt hcause.2 hother)⟩
  · have hfault : t.fault = false := Bool.eq_false_of_not_eq_true hbad
    refine State.stopped_eq_false_iff.2 ⟨Bool.eq_false_of_not_eq_true fun hhalt => hwell ?_, hfault⟩
    exact (State.endedWell_iff (step_statusLegal hlegal h)).2 ⟨hhalt, hfault⟩

/-! ### What the host takes from a run -/

theorem hostResult_eq_good_iff {events : List BusEvent} {s : State} {results : List Host.Cell} :
    hostResult events s = .good results ↔
      (s.halt = true ∧ s.fault = false) ∧ (resultAddresses events).map (fun a => (a, s.out.read a)) = results := by
  cases hfault : s.fault <;> cases hhalt : s.halt <;> simp [hostResult, hfault, hhalt]

theorem hostResult_eq_discard_iff {events : List BusEvent} {s : State} :
    hostResult events s = .discard s.cause s.pc ↔ s.fault = true := by
  cases hfault : s.fault <;> cases hhalt : s.halt <;> simp [hostResult, hfault, hhalt]

theorem hostResult_eq_running_iff {events : List BusEvent} {s : State} :
    hostResult events s = .running ↔ s.stopped = false := by
  rw [State.stopped_eq_false_iff]
  cases hfault : s.fault <;> cases hhalt : s.halt <;> simp [hostResult, hfault, hhalt]

/-- Settles O51: the host's reading splits on HALT and FAULT, and the results are OUT at the written addresses. -/
theorem hostTakesOutOnlyFromGoodRuns : Obligations.HostTakesOutOnlyFromGoodRuns := by
  unfold Obligations.HostTakesOutOnlyFromGoodRuns
  intro events s hlegal
  refine ⟨?_, fun results hgood => ?_, fun h => if_pos h, fun h => if_neg h,
    hostResult_eq_discard_iff.symm, hostResult_eq_running_iff.symm⟩
  · simp only [hostResult_eq_good_iff, exists_and_left, exists_eq', and_true]
    exact (State.endedWell_iff hlegal).symm
  · obtain ⟨-, rfl⟩ := hostResult_eq_good_iff.1 hgood
    refine ⟨?_, fun a b => ?_⟩
    · simpa [Function.comp_def] using resultAddresses_rising events
    · rw [← mem_resultAddresses]
      simp only [List.mem_map, Prod.mk.injEq]
      constructor
      · rintro ⟨a, ha, rfl, rfl⟩
        exact ⟨ha, rfl⟩
      · rintro ⟨ha, rfl⟩
        exact ⟨a, ha, rfl, rfl⟩

end Sys2Proof.Machine

/-! ### Fault entry, the order of the tests, and precise faults (60_exceptions) -/

namespace Sys2Proof.Machine

/-- Fault entry keeps the reserved bits of STATUS (60_exceptions R171). -/
@[simp] theorem State.takeFault_reserved (k : Cause) (s : State) : (s.takeFault k).reserved = s.reserved := by
  apply BitVec.eq_of_getLsbD_eq
  intro i hi
  cases k <;> interval_cases i <;> simp [State.reserved, statusFaulted, Cause.code]

/-- Settles O34: fault entry sets STATUS alone, bit field by bit field, and FAULT stops the block. -/
theorem faultEntryChangesStatusOnly : Obligations.FaultEntryChangesStatusOnly := by
  unfold Obligations.FaultEntryChangesStatusOnly
  intro k s
  have hcode : (s.takeFault k).cause = k.code := State.takeFault_cause k s
  refine ⟨rfl, State.takeFault_fault k s, ?_, State.takeFault_halt k s, State.takeFault_reserved k s,
    step_of_stopped (State.takeFault_stopped k s)⟩
  cases k <;> exact hcode

/-- A command at PC whose tests raise a cause ends the step in that fault (60_exceptions R170). -/
theorem step_of_raised {s : State} (hrun : s.stopped = false) (hfetch : s.canFetch = true) {i : Instr}
    (hdecode : decode s.fetchWord = .command i) {k : Cause} (hraised : firstRaised (commandTests i s) = some k) :
    step s = .next (s.takeFault k) :=
  (step_of_command hrun hfetch hdecode).trans (exec_of_raised hraised)

theorem firstRaised_of_misfit {i : Instr} {s : State} (hi : i = .packcol ∨ i = .packpage ∨ i = .packimg)
    (himg : s.imgLen.toNat ≠ s.width.toNat * s.height.toNat) :
    firstRaised (commandTests i s) = some .image := by
  obtain rfl | rfl | rfl := hi
  · rw [firstRaised_packcol, if_pos himg]
  · rw [firstRaised_packpage, if_pos himg]
  · rw [firstRaised_packimg, if_pos himg]

theorem firstRaised_of_beyond {i : Instr} {s : State} (himg : s.imgLen.toNat = s.width.toNat * s.height.toNat)
    (hbeyond : (i = .packcol ∧ (pageCount s.height.toNat ≤ s.page.toNat ∨ s.width.toNat ≤ s.col.toNat)) ∨
      (i = .packpage ∧ pageCount s.height.toNat ≤ s.page.toNat)) :
    firstRaised (commandTests i s) = some .index := by
  obtain ⟨rfl, hindex⟩ | ⟨rfl, hpage⟩ := hbeyond
  · rw [firstRaised_packcol, if_neg (not_not.2 himg), if_pos hindex]
  · rw [firstRaised_packpage, if_neg (not_not.2 himg), if_pos hpage]

theorem firstRaised_of_overruns {i : Instr} {s : State} (himg : s.imgLen.toNat = s.width.toNat * s.height.toNat)
    (hover : (i = .packcol ∧ s.page.toNat < pageCount s.height.toNat ∧ s.col.toNat < s.width.toNat ∧
        s.outLen.toNat ≤ s.page.toNat * s.width.toNat + s.col.toNat) ∨
      (i = .packpage ∧ s.page.toNat < pageCount s.height.toNat ∧
        s.outLen.toNat < (s.page.toNat + 1) * s.width.toNat) ∨
      (i = .packimg ∧ s.outLen.toNat < pageCount s.height.toNat * s.width.toNat)) :
    firstRaised (commandTests i s) = some .outbound := by
  obtain ⟨rfl, hpage, hcol, hout⟩ | ⟨rfl, hpage, hout⟩ | ⟨rfl, hout⟩ := hover
  · rw [firstRaised_packcol, if_neg (not_not.2 himg), if_neg (not_or.2 ⟨hpage.not_ge, hcol.not_ge⟩), if_pos hout]
  · rw [firstRaised_packpage, if_neg (not_not.2 himg), if_neg hpage.not_ge, if_pos hout]
  · rw [firstRaised_packimg, if_neg (not_not.2 himg), if_pos hout]

/-- Settles O35: the sequencer's two tests come first, and a command's own tests raise the first cause that holds. -/
theorem firstFailingTestDecides : Obligations.FirstFailingTestDecides := by
  unfold Obligations.FirstFailingTestDecides
  intro s hrun
  refine ⟨fun hpc => ?fetch, fun hpc => ?_⟩
  case fetch => exact step_of_noFetch hrun (decide_eq_false hpc.not_gt)
  have hfetch : s.canFetch = true := State.canFetch_iff.2 hpc
  refine ⟨fun hillegal => ?illegal, fun imm hdecode hbig => ?config, fun i hdecode hi himg => ?image,
    fun i hdecode himg hbeyond => ?index, fun i hdecode himg hover => ?outbound⟩
  case illegal => exact step_of_isIllegal hrun hfetch hillegal
  case config => exact (step_of_command hrun hfetch hdecode).trans (exec_setthr_of_gt hbig s)
  case image => exact step_of_raised hrun hfetch hdecode (firstRaised_of_misfit hi himg)
  case index => exact step_of_raised hrun hfetch hdecode (firstRaised_of_beyond himg hbeyond)
  case outbound => exact step_of_raised hrun hfetch hdecode (firstRaised_of_overruns himg hover)

/-- Settles O36: a step that ends with FAULT set took a fault, which changes STATUS alone and stops the block. -/
theorem faultsArePrecise : Obligations.FaultsArePrecise := by
  unfold Obligations.FaultsArePrecise
  intro s t hstep hfault
  obtain ⟨k, rfl, -⟩ := takeFault_of_endedBadly hstep hfault
  exact ⟨rfl, step_of_stopped (State.takeFault_stopped k s)⟩

end Sys2Proof.Machine

/-! ### PACKIMG at the reset register values (70_reset_and_hazards R191) -/

namespace Sys2Proof.Machine

/-- Settles O19: the reset dimensions are those of the empty image, which only an `IMG_LEN` of 0 fits. -/
theorem resetStatePacksNothing : Obligations.ResetStatePacksNothing := by
  unfold Obligations.ResetStatePacksNothing
  intro s hreset
  refine ⟨fun hempty => ?completes, fun hnonempty => ?image⟩
  case completes =>
    obtain ⟨-, -, -, hpacks⟩ := emptyImagePacksToNothing
    obtain ⟨hexec, -⟩ := hpacks s (.inl hreset.width) hempty
    rw [hexec, hreset.pc]
    rfl
  case image =>
    have hmisfit : s.imgLen.toNat ≠ s.width.toNat * s.height.toNat := by
      rw [hreset.width, BitVec.toNat_ofNat, Nat.zero_mod, Nat.zero_mul]
      exact fun hzero => hnonempty (BitVec.eq_of_toNat_eq hzero)
    exact exec_of_raised (firstRaised_of_misfit (.inr (.inr rfl)) hmisfit)

end Sys2Proof.Machine
